-- ==== Sys2Proof/Word.lean ====
section
/-! DEFINITION. The number systems of the core (00_scope.md R11): sample indices are natural numbers,
positions are exact rationals, rates are rationals greater than zero, a data byte has 8 bits. -/

namespace Sys2Proof

/-- A sample index: an element of `N`, without bound (R11, D4). -/
abbrev SampleIndex := Nat

/-- A position on the sample-index axis: an exact rational (R11, R24, R108). -/
abbrev Position := ℚ

/-- `Q+`, the rationals greater than zero (R11): zero and negative rates cannot be held (R27). -/
abbrev PosRat := { q : ℚ // 0 < q }

/-- The payload of an annotation, 0 to 255 (R14, R78). -/
abbrev Byte := BitVec 8

end Sys2Proof
end

