-- ==== Sys2Proof/Config.lean ====
section
/-! DEFINITION. The parameters the spec leaves open (00_scope.md R10) and the free values of the model.
A constant with no body is a free value: no proof can see what it is. -/

namespace Sys2Proof

/-- `SAMPLE_W`, the width of a sample index on the ports: OPEN in R10, 32 in the examples and in
spec/opcode_table.json. Used for table words only; indices inside the core have no bound (log 7). -/
def Config.sampleW : Nat := 32

/-- `RATE_W`, the width of a rate on the `cfg` port of a build that restricts rates to integers:
OPEN in R10, 32 in the examples. -/
def Config.rateW : Nat := 32

/-- `BIT_RATE_DEFAULT` (R9), substituted by the harness, never by the core. -/
def Config.bitRateDefault : PosRat := ⟨98425, by norm_num⟩

/-- `FAULT_CODE_CONFIG` (R10, R180): the code of ConfigurationError on the `fault` port. -/
def Config.faultCodeConfig : BitVec 2 := 1#2

/-- `ANN_TEXT` (R10, R80): the two texts (long, short) of an annotation as a function of its category
code and its data, owned by the sink and OPEN. A free value (log 13). -/
opaque Config.annText : BitVec 3 → Byte → String × String

/-- First half of the free value `Config.unstatedBitWidth`; the argument is what `CFG.bit_rate` holds. -/
opaque Config.unstatedNum : Option PosRat → Nat

/-- Second half of the free value `Config.unstatedBitWidth`. -/
opaque Config.unstatedDen : Option PosRat → Nat

/-- The bit width in a state that holds no sample rate. R28 defines it only when a sample rate is
present, R120 takes it for a positive rational and R130 lets the symbol operations run in every state:
so it is a FREE positive rational (every positive rational has this form), one per content of `CFG`
because R28 calls it a function of `CFG` (log 6). No run from reset reads it. -/
def Config.unstatedBitWidth (bitRate : Option PosRat) : ℚ :=
  ((Config.unstatedNum bitRate : ℚ) + 1) / ((Config.unstatedDen bitRate : ℚ) + 1)

end Sys2Proof
end

