-- ==== Sys2Proof/Syntax.lean ====
section
/-! DEFINITION. The operations of the core (30_encoding.md R72, R75) and the words that carry them:
format EV with the `cfg` port (R71, R74) and the internal format SYM (R75). -/

namespace Sys2Proof

/-- `Config` of R14: what START latches. `sampleRate = none` is the spec's `absent`. -/
structure Cfg where
  sampleRate : Option PosRat
  bitRate    : PosRat
deriving DecidableEq, Repr

/-- Format CFGIN (R74), what stands on the `cfg` port. `sampleRate` is meaningful only when `srValid`. -/
structure CfgIn where
  srValid    : Bool
  sampleRate : PosRat
  bitRate    : PosRat
deriving DecidableEq, Repr

/-- The operations: one constructor per row of spec/opcode_table.json.
`high` to `reset` are the events of R14, `bit0`, `bit1`, `brk` the assembler's operations (R122, R123, R126). -/
inductive Instr where
  /-- HIGH `t` (R152): the line is high at sample `t`. -/
  | high (t : SampleIndex)
  /-- FALL `t` (R153): falling edge at sample `t`. -/
  | fall (t : SampleIndex)
  /-- RISE `t` (R154): rising edge at sample `t`. -/
  | rise (t : SampleIndex)
  /-- END (R155): the edge source is exhausted. -/
  | endInput
  /-- START `cfg` (R151): invoke decode with the configuration on the `cfg` port. -/
  | start (cfg : Cfg)
  /-- RESET (R156). -/
  | reset
  /-- BIT0 (R122), carrying the `start` and `dur` of its SYM record, which no rule reads (R75). -/
  | bit0 (start : SampleIndex) (dur : Int)
  /-- BIT1 (R123), likewise. -/
  | bit1 (start : SampleIndex) (dur : Int)
  /-- BREAK (R126): `now` is the rising-edge index the assembler is invoked with (R120). -/
  | brk (start : SampleIndex) (now : SampleIndex)
deriving DecidableEq, Repr

/-- What one step takes from the input ports: an EV word as its two fields (R71), with `t` unbounded
because `SAMPLE_W` is open, and the `cfg` port as it stands during that step. -/
structure EvIn where
  op  : BitVec 3
  t   : SampleIndex
  cfg : CfgIn
deriving DecidableEq, Repr

/-- One invocation of the assembler: a SYM record (R75) and the value `now` (R120). -/
structure SymIn where
  kind  : BitVec 2
  start : SampleIndex
  dur   : Int
  now   : SampleIndex
deriving DecidableEq, Repr

/-- A word the machine can run: from the `ev` port, or from the internal SYM interface. -/
inductive InWord where
  | ev (x : EvIn)
  | sym (x : SymIn)
deriving DecidableEq, Repr

end Sys2Proof
end

