-- ==== Sys2Proof/WellFormed.lean ====
section
/-! DEFINITION. Which instructions a port with `SAMPLE_W`-bit sample indices can carry (R71, R217):
every sample index is below `2 ^ SAMPLE_W`. Rates are positive by their type (R27, R74). -/

namespace Sys2Proof

/-- `i` can be carried by fields of `sw` bits. -/
def Instr.wellFormed (sw : Nat) : Instr → Bool
  | .high t     => decide (t < 2 ^ sw)
  | .fall t     => decide (t < 2 ^ sw)
  | .rise t     => decide (t < 2 ^ sw)
  | .endInput   => true
  | .start _    => true
  | .reset      => true
  | .bit0 st _  => decide (st < 2 ^ sw)
  | .bit1 st _  => decide (st < 2 ^ sw)
  | .brk st now => decide (st < 2 ^ sw) && decide (now < 2 ^ sw)

end Sys2Proof
end

