-- ==== Sys2Proof/Decode.lean ====
section
/-! DEFINITION. Decoding and encoding of the EV, CFGIN and SYM formats (30_encoding.md R71 to R75, R82):
total on every word, reserved codes rejected by name. -/

namespace Sys2Proof

/-- Why a word names no operation. -/
inductive DecodeError where
  /-- `op` 6 or 7 (R72, R82 a). -/
  | reservedOp
  /-- SYM `kind` 3, which no rule produces (R75, R82 d). That it is rejected is the model's choice (log 26). -/
  | reservedKind
deriving DecidableEq, Repr

/-- What `cfg` means (R74): `sample_rate` is absent when `sr_valid == 0`, else the number. -/
def CfgIn.toCfg (c : CfgIn) : Cfg :=
  { sampleRate := if c.srValid then some c.sampleRate else none, bitRate := c.bitRate }

/-- The opcode map of R72. `t` is used as it is (R73); END, START and RESET ignore it (R82 b). -/
def decodeEv (x : EvIn) : Except DecodeError Instr :=
  match x.op.toNat with
  | 0 => .ok (.high x.t)
  | 1 => .ok (.fall x.t)
  | 2 => .ok (.rise x.t)
  | 3 => .ok .endInput
  | 4 => .ok (.start x.cfg.toCfg)
  | 5 => .ok .reset
  | _ => .error .reservedOp

/-- The symbol kinds of R75; kind 3 is rejected (log 26, DESIGN CHOICE). -/
def decodeSym (x : SymIn) : Except DecodeError Instr :=
  match x.kind.toNat with
  | 0 => .ok (.bit0 x.start x.dur)
  | 1 => .ok (.bit1 x.start x.dur)
  | 2 => .ok (.brk x.start x.now)
  | _ => .error .reservedKind

/-- The decoder. -/
def decode : InWord → Except DecodeError Instr
  | .ev x  => decodeEv x
  | .sym x => decodeSym x

/-- The EV word of `sw + 3` bits read as its fields: `op` on top of `t` (R71). -/
def evOfBits (sw : Nat) (w : BitVec (3 + sw)) (cfg : CfgIn) : EvIn :=
  { op := w.extractLsb' sw 3, t := (w.setWidth sw).toNat, cfg := cfg }

/-- The EV word `{op, t}` of `sw + 3` bits (R71, R12). None where `t` does not fit its field: R217 puts
such an index outside the spec, and the model gives it no word rather than a wrapped one (log 25,
DESIGN CHOICE). -/
def evToBits (sw : Nat) (x : EvIn) : Option (BitVec (3 + sw)) :=
  if x.t < 2 ^ sw then some (x.op ++ BitVec.ofNat sw x.t) else none

/-- A positive rational from a natural number, none for 0. -/
def posRatOfNat : Nat → Option PosRat
  | 0     => none
  | n + 1 => some ⟨((n + 1 : Nat) : ℚ), by exact_mod_cast Nat.succ_pos n⟩

/-- CFGIN of a build whose rates are integers of `rw` bits (R74): `{sr_valid, sample_rate, bit_rate}`.
None where a rate that is read is zero, which the spec says cannot be expressed (R27, U3).
With `sr_valid == 0` the `sample_rate` field is not read (log 12). -/
def cfgOfBits (rw : Nat) (w : BitVec (1 + rw + rw)) : Option CfgIn :=
  let valid := w.getLsbD (rw + rw)
  match posRatOfNat (w.setWidth rw).toNat, posRatOfNat (w.extractLsb' rw rw).toNat with
  | some br, some sr => some { srValid := valid, sampleRate := sr, bitRate := br }
  | some br, none    => if valid then none else some { srValid := false, sampleRate := ⟨1, by norm_num⟩, bitRate := br }
  | none, _          => none

/-- What the model takes to stand on the `cfg` port where nobody drives it: no sample rate, and the
harness's default bit rate (log 8). -/
def cfgPortIdle : CfgIn :=
  { srValid := false, sampleRate := ⟨1, by norm_num⟩, bitRate := Config.bitRateDefault }

/-- The `cfg` port that carries `c` (R74). -/
def cfgInOf (c : Cfg) : CfgIn :=
  match c.sampleRate with
  | some sr => { srValid := true, sampleRate := sr, bitRate := c.bitRate }
  | none    => { srValid := false, sampleRate := ⟨1, by norm_num⟩, bitRate := c.bitRate }

/-- The encoder (R72, R75; `t = 0` where the line has no `<t>`, R84). -/
def encode : Instr → InWord
  | .high t       => .ev { op := 0#3, t := t, cfg := cfgPortIdle }
  | .fall t       => .ev { op := 1#3, t := t, cfg := cfgPortIdle }
  | .rise t       => .ev { op := 2#3, t := t, cfg := cfgPortIdle }
  | .endInput     => .ev { op := 3#3, t := 0, cfg := cfgPortIdle }
  | .start c      => .ev { op := 4#3, t := 0, cfg := cfgInOf c }
  | .reset        => .ev { op := 5#3, t := 0, cfg := cfgPortIdle }
  | .bit0 st dur  => .sym { kind := 0#2, start := st, dur := dur, now := 0 }
  | .bit1 st dur  => .sym { kind := 1#2, start := st, dur := dur, now := 0 }
  | .brk st now   => .sym { kind := 2#2, start := st, dur := 0, now := now }

/-- The EV word of an instruction of format EV. -/
def encodeEv (i : Instr) : Option EvIn :=
  match encode i with
  | .ev x  => some x
  | .sym _ => none

/-- The operations that arrive on the `ev` port (R72). -/
def Instr.onEvPort (i : Instr) : Bool := (encodeEv i).isSome

/-- The word that spec/opcode_table.json numbers: rows of 8 bits or fewer are SYM rows, whose 2 bits
are `kind` and whose other fields are 0 (log 18); the others are EV rows of `SAMPLE_W + 3` bits (log 7)
beside an undriven `cfg` port (log 8). None where `w` has bits above its format (log 27). -/
def tableWord (nbits w : Nat) : Option InWord :=
  if nbits ≤ 8 then
    if w < 2 ^ 2 then some (.sym { kind := BitVec.ofNat 2 w, start := 0, dur := 0, now := 0 }) else none
  else if w < 2 ^ (3 + Config.sampleW) then
    some (.ev (evOfBits Config.sampleW (BitVec.ofNat (3 + Config.sampleW) w) cfgPortIdle))
  else none

/-- The instruction the decoder reads from a word as the opcode table numbers its bits. -/
def decodeTableWord (nbits w : Nat) : Option Instr :=
  match tableWord nbits w with
  | none   => none
  | some x =>
    match decode x with
    | .ok i    => some i
    | .error _ => none

end Sys2Proof
end

