-- ==== Sys2Proof/Machine/Constants.lean ====
section
/-! DEFINITION. The constants of the core (00_scope.md R8), each a named exact fraction. The spec calls
the source's literals unaudited (U10), so every rule uses the name. -/

namespace Sys2Proof.Machine

/-- `K_BREAK`: "`bit_width * 1.2`". -/
def kBreak : ℚ := 6 / 5
/-- `K_HALF`: "`bit_width / 2`". -/
def kHalf : ℚ := 1 / 2
/-- `K_BIT_LEN`: "spanning one bit-width". -/
def kBitLen : ℚ := 1
/-- `K_STOP_GAP`: "advance the cursor by `0.3 * bit_width`". -/
def kStopGap : ℚ := 3 / 10
/-- `K_STOP_LEN`: "spanning `1.3 * bit_width`". -/
def kStopLen : ℚ := 13 / 10
/-- `K_RECOVERY`: "spanning `0.45 * bit_width`". -/
def kRecovery : ℚ := 9 / 20
/-- `K_WAIT_END`: "`(cursor + 2.0*bit_width)`". -/
def kWaitEnd : ℚ := 2
/-- `BYTE_BITS`: "8 bits". -/
def byteBits : Nat := 8

end Sys2Proof.Machine
end

