-- ==== Sys2Proof/Machine/State.lean ====
section
/-! DEFINITION. The state of the core (10_state.md R20), the reasons a step can stop, and the state
after RESET (R35). -/

namespace Sys2Proof.Machine

/-- The sequencing register (R26): what the driving loop waits for, or how it stopped. -/
inductive Phase where
  | idle | sync | waitFall | waitRise | done | configFault
deriving DecidableEq, Repr

/-- The two values of `break_count` (R23). -/
inductive BreakCount where
  | one | two
deriving DecidableEq, Repr

/-- The categories of an annotation, in the order of the source's list (R14, R77). -/
inductive Category where
  | bit | byte | char | brk | breakRecovery | wait | stop
deriving DecidableEq, Repr

/-- An annotation as the core forms it, with exact positions (R14). -/
structure Annotation where
  startPos : Position
  endPos   : Position
  cat      : Category
  data     : Byte
deriving DecidableEq, Repr

/-- The classifier's result (R14, R75). `start` and `dur` are carried and read by no rule. -/
inductive Symbol where
  | brk (start : SampleIndex)
  | bit (b : Bool) (start : SampleIndex) (dur : Int)
deriving DecidableEq, Repr

/-- Reasons to stop with a fault: NONE. The core's one exception, ConfigurationError, is taken as the
spec describes it and the machine goes on (R182, R183; log 5); nothing else is an error (R184). -/
inductive Fault where
deriving DecidableEq, Repr

/-- Reasons a step gives no result (R187: a refused run has no meaning from there on). All are safe:
the model claims nothing where the spec claims nothing. -/
inductive Refusal where
  /-- Raised by `exec` for an instruction without a meaning; no arm raises it. Safe. -/
  | notModelled (mnemonic : String)
  /-- R158: the operation is not the one the current phase awaits. Raised by HIGH, FALL, RISE, END, START. Safe. -/
  | wrongPhase
  /-- R82 a, R159: `op` 6 or 7. Raised by `step` when decoding refuses. Safe. -/
  | reservedOp
  /-- SYM `kind` 3, which no rule produces (R75, R82 d; that it is refused is log 26). Raised by `step`
  when decoding refuses. Safe. -/
  | reservedKind
  /-- R217, D4, U7: a sample index or an annotation end reached `2 ^ SAMPLE_W`. Raised by
  `stepBounded`, the step of a build of bounded width, never by `step`. Safe. -/
  | indexWidth
  /-- R35, R210, U11: a word other than RESET while no register holds a value. Raised by
  `stepPowered`, the step from power-on, never by `step`. Safe. -/
  | noRegisterValue
deriving DecidableEq, Repr

/-- The registers of R20, and the streams and the internal SYM interface, which the host's form of a
step has no other place for (R34; logs 1 to 3). -/
structure State where
  /-- `current_bits` (R21): the bits of the byte being accumulated, oldest first; length 0 to 7 between steps. -/
  currentBits     : List Bool
  /-- `byte_start_sample` (R22): 0 means unset. -/
  byteStartSample : SampleIndex
  /-- `break_count` (R23). -/
  breakCount      : BreakCount
  /-- `cursor_sample` (R24): exact, never negative. -/
  cursorSample    : Position
  /-- `fall_sample` (R25). -/
  fallSample      : SampleIndex
  /-- `phase` (R26). -/
  phase           : Phase
  /-- `CFG` (R27): `none` is the spec's "hold no value" between RESET and START (R35). -/
  cfg             : Option Cfg
  /-- MODEL'S OWN: the words still to come on the input ports, oldest first (R51). -/
  inputs          : List EvIn
  /-- MODEL'S OWN: a symbol standing on the internal SYM interface (R75); empty between steps of every run. -/
  sym             : Option SymIn
  /-- MODEL'S OWN: the annotations handed to the sink so far, oldest first (R52, R59, R191). -/
  ann             : List Annotation
deriving DecidableEq, Repr

/-- The machine right after RESET (R35), with no word waiting and nothing emitted. -/
def State.reset : State :=
  { currentBits     := []
    byteStartSample := 0
    breakCount      := .one
    cursorSample    := 0
    fallSample      := 0
    phase           := .idle
    cfg             := none
    inputs          := []
    sym             := none
    ann             := [] }

end Sys2Proof.Machine
end

