-- ==== Sys2Proof/Machine/Operands.lean ====
section
/-! DEFINITION. How each value is formed (30_encoding.md R81): the derived configuration values (R28),
the pulse width (R101) and the byte value (R125). -/

namespace Sys2Proof.Machine

/-- `bit_width = CFG.sample_rate / CFG.bit_rate` (R28); a free value where `CFG` holds no sample rate (log 6). -/
def bitWidthOf (cfg : Option Cfg) : ℚ :=
  match cfg with
  | some { sampleRate := some sr, bitRate := br } => sr.val / br.val
  | some { sampleRate := none, bitRate := br }    => Config.unstatedBitWidth (some br)
  | none                                          => Config.unstatedBitWidth none

/-- `bit_width` in a state. -/
def bitWidth (s : State) : ℚ := bitWidthOf s.cfg

/-- `half_bit_width = K_HALF * bit_width` (R28, R100). -/
def halfBitWidth (w : ℚ) : ℚ := kHalf * w

/-- `break_threshold = K_BREAK * bit_width` (R28, R100). -/
def breakThreshold (w : ℚ) : ℚ := kBreak * w

/-- `delta = t_rise - t_fall` (R101), in `Z`: no wrap, no clamp. -/
def pulseWidth (tFall tRise : SampleIndex) : Int := (tRise : Int) - (tFall : Int)

/-- `Pack` as R125 has it in shift-register terms: `value <- value * 2 + b` in order of arrival. -/
def pack (bits : List Bool) : Nat := bits.foldl (fun v b => v * 2 + b.toNat) 0

/-- The byte value as the 8-bit `data` of Byte and Char (R54, R78). -/
def packByte (bits : List Bool) : Byte := BitVec.ofNat 8 (pack bits)

/-- `zext_8(b)`, the `data` of a Bit annotation (R78). -/
def bitData (b : Bool) : Byte := (BitVec.ofBool b).setWidth 8

end Sys2Proof.Machine
end

