-- ==== Sys2Proof/Machine/Ops.lean ====
section
/-! DEFINITION. The shared operations: emitting an annotation, accepting a word in a phase, taking
ConfigurationError and the one way out of it, and fetching the next word. -/

namespace Sys2Proof.Machine

/-- `Emit(cat, start, end, data)` (R13, R52): append one annotation to the output. -/
def State.emit (s : State) (cat : Category) (startPos endPos : Position) (data : Byte) : State :=
  { s with ann := s.ann ++ [{ startPos := startPos, endPos := endPos, cat := cat, data := data }] }

/-- A word accepted in the phases `ps` only: it moves to `t` there, elsewhere it is refused (R157, R158). -/
def acceptIn (ps : List Phase) (s t : State) : Host.Outcome State Fault Refusal :=
  if s.phase ∈ ps then .next t else .refused .wrongPhase

/-- Taking ConfigurationError (R182): `phase` becomes `ConfigFault` and `CFG.sample_rate` absent, with
`CFG.bit_rate` as START has loaded it (R151). Nothing is saved and nothing else changes; the `fault`
port follows `phase` (R86). -/
def takeConfigurationError (s : State) (bitRate : PosRat) : State :=
  { s with cfg := some { sampleRate := none, bitRate := bitRate }, phase := .configFault }

/-- RESET's effect (R156), the only way out of `ConfigFault` and `Done` (R183): every register to its
value of R35; what was emitted stays with the sink. -/
def resetRegisters (s : State) : State :=
  { s with
    currentBits     := []
    byteStartSample := 0
    breakCount      := .one
    cursorSample    := 0
    fallSample      := 0
    phase           := .idle
    cfg             := none }

/-- The next word and the state it leaves: a symbol on the SYM interface goes first, then the input
words in the order given, each consumed exactly once (R51). None: no word is waiting. -/
def fetch (s : State) : Option (InWord × State) :=
  match s.sym with
  | some x => some (.sym x, { s with sym := none })
  | none =>
    match s.inputs with
    | []        => none
    | x :: rest => some (.ev x, { s with inputs := rest })

/-- The refusal of a word that decodes to nothing: op 6 and 7 (R82 a, R159), SYM kind 3 (log 26). -/
def refusalOf : DecodeError → Refusal
  | .reservedOp   => .reservedOp
  | .reservedKind => .reservedKind

end Sys2Proof.Machine
end

