-- ==== Sys2Proof/Machine/Control.lean ====
section
/-! DEFINITION. The host's commands (42_driving_loop.md): START and RESET. -/

namespace Sys2Proof.Machine

/-- START (R151): latch the configuration; without a sample rate take ConfigurationError (R180, R182). -/
def execStart (cfg : Cfg) (s : State) : Host.Outcome State Fault Refusal :=
  acceptIn [.idle] s
    (match cfg.sampleRate with
     | none    => takeConfigurationError s cfg.bitRate
     | some sr => { s with cfg := some { sampleRate := some sr, bitRate := cfg.bitRate }, phase := .sync })

/-- RESET (R156): accepted in every phase. -/
def execReset (s : State) : Host.Outcome State Fault Refusal :=
  .next (resetRegisters s)

end Sys2Proof.Machine
end

