-- ==== Sys2Proof/Machine/Classifier.lean ====
section
/-! DEFINITION. The TimingClassifier (40_timing_classifier.md R102): a pure function from a pulse width
and the bit width to a symbol. -/

namespace Sys2Proof.Machine

/-- CLASSIFY (R102), both comparisons strict (R103), with the start index and the width the symbol carries (R75). -/
def classify (w : ℚ) (start : SampleIndex) (delta : Int) : Symbol :=
  if breakThreshold w < (delta : ℚ) then .brk start
  else if halfBitWidth w < (delta : ℚ) then .bit false start delta
  else .bit true start delta

end Sys2Proof.Machine
end

