-- ==== Sys2Proof/Machine/Assembler.lean ====
section
/-! DEFINITION. The SymbolAssembler (41_symbol_assembler.md): BIT0, BIT1, BREAK and their common
procedures. All run in every state and raise nothing (R130). -/

namespace Sys2Proof.Machine

/-- `ByteComplete` (R124), on a state whose `current_bits` holds the eight bits. -/
def byteComplete (s : State) : State :=
  let w := bitWidth s
  let value := packByte s.currentBits
  let s1 := s.emit .byte s.byteStartSample (s.cursorSample + w) value
  let s2 := s1.emit .char s1.byteStartSample (s1.cursorSample + w) value
  let s3 := { s2 with
    currentBits     := []
    byteStartSample := 0
    cursorSample    := s2.cursorSample + kStopGap * w }
  s3.emit .stop s3.cursorSample (s3.cursorSample + kStopLen * w) 0#8

/-- `AssembleBit(b)` (R121). -/
def assembleBit (b : Bool) (s : State) : State :=
  let s1 := { s with currentBits := s.currentBits ++ [b] }
  let s2 := s1.emit .bit s1.cursorSample (s1.cursorSample + kBitLen * bitWidth s1) (bitData b)
  if s2.currentBits.length = byteBits then byteComplete s2 else s2

/-- `AssembleBreak(now)` (R126). -/
def assembleBreak (now : SampleIndex) (s : State) : State :=
  let w := bitWidth s
  let s1 := s.emit .brk s.cursorSample now 0#8
  let s2 := { s1 with cursorSample := (now : ℚ) }
  let s3 := s2.emit .breakRecovery s2.cursorSample (s2.cursorSample + kRecovery * w) 0#8
  let s4 :=
    match s3.breakCount with
    | .two => ({ s3 with breakCount := .one } : State).emit .wait
                (s3.cursorSample + kRecovery * w) (s3.cursorSample + kWaitEnd * w) 0#8
    | .one => { s3 with breakCount := .two }
  { s4 with currentBits := [], byteStartSample := 0 }

/-- The dispatch of a symbol inside a RISE step (R154): `Bit(0)` and `Bit(1)` to `AssembleBit`,
`Break` to `AssembleBreak(now)`. -/
def dispatchSymbol (sym : Symbol) (now : SampleIndex) (s : State) : State :=
  match sym with
  | .bit b _ _ => assembleBit b s
  | .brk _     => assembleBreak now s

/-- BIT0 (R122). -/
def execBit0 (_start : SampleIndex) (_dur : Int) (s : State) : Host.Outcome State Fault Refusal :=
  .next (assembleBit false s)

/-- BIT1 (R123). -/
def execBit1 (_start : SampleIndex) (_dur : Int) (s : State) : Host.Outcome State Fault Refusal :=
  .next (assembleBit true s)

/-- BREAK (R126). -/
def execBrk (_start : SampleIndex) (now : SampleIndex) (s : State) : Host.Outcome State Fault Refusal :=
  .next (assembleBreak now s)

end Sys2Proof.Machine
end

