-- ==== Sys2Proof/Machine/DrivingLoop.lean ====
section
/-! DEFINITION. The driving loop's answers of the EdgeSource (42_driving_loop.md): HIGH, FALL, RISE, END. -/

namespace Sys2Proof.Machine

/-- HIGH (R152): ends the synchronization wait; `t` is not stored. -/
def execHigh (_t : SampleIndex) (s : State) : Host.Outcome State Fault Refusal :=
  acceptIn [.sync] s { s with phase := .waitFall }

/-- FALL (R153): latches the falling edge, loads the cursor, and records the byte-start candidate when
`byte_start_sample` holds the sentinel 0. -/
def execFall (t : SampleIndex) (s : State) : Host.Outcome State Fault Refusal :=
  acceptIn [.waitFall] s
    { s with
      fallSample      := t
      cursorSample    := (t : ℚ)
      byteStartSample := if s.byteStartSample = 0 then t else s.byteStartSample
      phase           := .waitRise }

/-- RISE (R154): classify the pulse that ends at `t` and dispatch the symbol, in one step. -/
def execRise (t : SampleIndex) (s : State) : Host.Outcome State Fault Refusal :=
  acceptIn [.waitRise] s
    (dispatchSymbol (classify (bitWidth s) s.fallSample (pulseWidth s.fallSample t)) t
      { s with phase := .waitFall })

/-- END (R155): the input is exhausted; nothing is flushed (R160). -/
def execEndInput (s : State) : Host.Outcome State Fault Refusal :=
  acceptIn [.sync, .waitFall, .waitRise] s { s with phase := .done }

end Sys2Proof.Machine
end

