-- ==== Sys2Proof/Machine/Dispatch.lean ====
section
/-! DEFINITION. One arm per instruction: which meaning runs (42_driving_loop.md R159). -/

namespace Sys2Proof.Machine

def exec (i : Instr) (s : State) : Host.Outcome State Fault Refusal :=
  match i with
  | .high t => Sys2Proof.Machine.execHigh t s
  | .fall t => Sys2Proof.Machine.execFall t s
  | .rise t => Sys2Proof.Machine.execRise t s
  | .endInput => Sys2Proof.Machine.execEndInput s
  | .start cfg => Sys2Proof.Machine.execStart cfg s
  | .reset => Sys2Proof.Machine.execReset s
  | .bit0 start dur => Sys2Proof.Machine.execBit0 start dur s
  | .bit1 start dur => Sys2Proof.Machine.execBit1 start dur s
  | .brk start now => Sys2Proof.Machine.execBrk start now s

end Sys2Proof.Machine
end

