-- ==== Sys2Proof/Machine/Step.lean ====
section
/-! DEFINITION. One step of the machine (00_scope.md R15, 42_driving_loop.md R159): fetch a word, decode
it, run it. -/

namespace Sys2Proof.Machine

/-- One step. With no word waiting the core idles and its state does not change (R161, R196; log 4). -/
def step (s : State) : Host.Outcome State Fault Refusal :=
  match fetch s with
  | none => .next s
  | some (w, s1) =>
    match decode w with
    | .error e => .refused (refusalOf e)
    | .ok i    => exec i s1

/-- `s` with the word `w` of the opcode table as the next word to be fetched: an EV row at the head of
the input words, a SYM row on the SYM interface (log 9). -/
def State.withFetchWord (s : State) (nbits w : Nat) : State :=
  match tableWord nbits w with
  | none          => s
  | some (.ev x)  => { s with sym := none, inputs := x :: s.inputs }
  | some (.sym x) => { s with sym := some x }

end Sys2Proof.Machine
end

