-- ==== Sys2Proof/Machine/EdgeSource.lean ====
section
/-! DEFINITION. The reference pin-level EdgeSource (60_exceptions.md R192), outside the core, and the
pseudo-instruction PULSE (30_encoding.md R85). -/

namespace Sys2Proof.Machine

/-- The three conditions an EdgeSource is asked for (R189). -/
inductive EdgeWait where
  | lineHigh | fallingEdge | risingEdge
deriving DecidableEq, Repr

/-- Whether sample `n` of `samples` answers the wait, `p` being the index of the previous answer (R192). -/
def answersWait (samples : List Bool) (wait : EdgeWait) (p n : Nat) : Bool :=
  match wait with
  | .lineHigh    => samples[n]? == some true
  | .fallingEdge => decide (p < n) && samples[n - 1]? == some true && samples[n]? == some false
  | .risingEdge  => decide (p < n) && samples[n - 1]? == some false && samples[n]? == some true

/-- The answer to a wait: the least such sample (R192), none when the samples run out. -/
def edgeAnswer (samples : List Bool) (wait : EdgeWait) (p : Nat) : Option Nat :=
  (List.range samples.length).find? (answersWait samples wait p)

/-- The word that carries an answer. -/
def edgeWord (wait : EdgeWait) (n : Nat) : Instr :=
  match wait with
  | .lineHigh    => .high n
  | .fallingEdge => .fall n
  | .risingEdge  => .rise n

/-- What the driving loop waits for next (R150). -/
def EdgeWait.next : EdgeWait → EdgeWait
  | .lineHigh    => .fallingEdge
  | .fallingEdge => .risingEdge
  | .risingEdge  => .fallingEdge

/-- The words from a wait on, at most `fuel` answers and then END. -/
def edgeWords (samples : List Bool) : Nat → EdgeWait → Nat → List Instr
  | 0,        _,    _ => [.endInput]
  | fuel + 1, wait, p =>
    match edgeAnswer samples wait p with
    | none   => [.endInput]
    | some n => edgeWord wait n :: edgeWords samples fuel wait.next n

/-- The words the reference front end yields for a sampled line: HIGH, then FALL and RISE in turn, then
END. Answers are distinct samples, so `samples.length` of them are all there can be. -/
def edgeSource (samples : List Bool) : List Instr := edgeWords samples samples.length .lineHigh 0

/-- PULSE `t`, `d` (R85): a low pulse of `d` samples starting at `t`. -/
def pulse (t d : Nat) : List Instr := [.fall t, .rise (t + d)]

end Sys2Proof.Machine
end

