-- ==== Sys2Proof/Machine/Flags.lean ====
section
/-! DEFINITION. The read-only outputs. The core has no flag and no condition code (10_state.md R31): its
sticky conditions are values of `phase`, seen on the `fault` port (R86) and the `status` port (R70). -/

namespace Sys2Proof.Machine

/-- Format FLT (R86). -/
structure Flt where
  fault : Bool
  code  : BitVec 2
deriving DecidableEq, Repr

/-- The `fault` port: 1 exactly while `phase == ConfigFault`, with the code of ConfigurationError. -/
def fltOf (s : State) : Flt :=
  if s.phase = .configFault then { fault := true, code := Config.faultCodeConfig }
  else { fault := false, code := 0#2 }

/-- `{fault, code[1:0]}` as three bits. -/
def Flt.toBits (f : Flt) : BitVec 3 := BitVec.ofBool f.fault ++ f.code

/-- The code of a phase (R26). -/
def Phase.code : Phase → BitVec 3
  | .idle        => 0#3
  | .sync        => 1#3
  | .waitFall    => 2#3
  | .waitRise    => 3#3
  | .done        => 4#3
  | .configFault => 5#3

/-- The `status` port (R70). -/
def statusOf (s : State) : BitVec 3 := s.phase.code

end Sys2Proof.Machine
end

