-- ==== Sys2Proof/Machine/Platform.lean ====
section
/-! DEFINITION. Three views of a step: its outcome in the spec's form (00_scope.md R14), the step of a
build whose sample indices have `sw` bits (70_reset_and_hazards.md R217), and the step from power-on,
before the first RESET (R210). -/

namespace Sys2Proof.Machine

/-- `Outcome` of R14. -/
inductive SpecOutcome where
  | ok (s : State) (anns : List Annotation)
  | configurationError (s : State)
  | refused (r : Refusal)
deriving DecidableEq, Repr

/-- The outcome of a step from `s` in the form of R14: the annotations of the step are those it
appended, and a step that enters `ConfigFault` is the one that raised ConfigurationError (R182). -/
def specOutcome (s : State) (o : Host.Outcome State Fault Refusal) : SpecOutcome :=
  match o with
  | .next t    => if s.phase ≠ .configFault ∧ t.phase = .configFault then .configurationError t
                  else .ok t (t.ann.drop s.ann.length)
  | .fault r   => nomatch r
  | .refused r => .refused r

/-- An input word whose sample index, where it is one (HIGH, FALL, RISE), is below `2 ^ sw`. -/
def evFits (sw : Nat) (x : EvIn) : Bool := decide (x.op.toNat ≤ 2 → x.t < 2 ^ sw)

/-- An annotation whose end is below `2 ^ sw`. -/
def annFits (sw : Nat) (a : Annotation) : Bool := decide (a.endPos < 2 ^ sw)

/-- The step of a build with `sw`-bit sample indices: the normative step, refused where an input index
or the end of an annotation of this step reaches `2 ^ sw` (R217, U7), never wrapped. -/
def stepBounded (sw : Nat) (s : State) : Host.Outcome State Fault Refusal :=
  let wordFits :=
    match fetch s with
    | some (.ev x, _) => evFits sw x
    | _               => true
  if wordFits then
    match step s with
    | .next t    => if (t.ann.drop s.ann.length).all (annFits sw) then .next t else .refused .indexWidth
    | .fault r   => .fault r
    | .refused r => .refused r
  else .refused .indexWidth

/-- The core with or without values in its registers: after power-on none holds one (R35, R210). -/
inductive Powered where
  | noValue (inputs : List EvIn)
  | running (s : State)
deriving DecidableEq, Repr

/-- A step from power-on: only RESET is defined before the first RESET (R156, R210, U11). -/
def stepPowered (p : Powered) : Host.Outcome Powered Fault Refusal :=
  match p with
  | .noValue []          => .next (.noValue [])
  | .noValue (x :: rest) =>
    match decodeEv x with
    | .ok .reset => .next (.running { State.reset with inputs := rest })
    | .ok _      => .refused .noRegisterValue
    | .error e   => .refused (refusalOf e)
  | .running s           =>
    match step s with
    | .next t    => .next (.running t)
    | .fault r   => .fault r
    | .refused r => .refused r

end Sys2Proof.Machine
end

