-- ==== Sys2Proof/Machine/Ports.lean ====
section
/-! DEFINITION. The `ann` port and what the sink makes of it (30_encoding.md R76 to R81): the binary
record with floored positions, the rows and the texts. -/

namespace Sys2Proof.Machine

/-- `ROUND` (R10, R81 d): floor. -/
def roundPosition (q : Position) : Int := ⌊q⌋

/-- The category codes (R77). -/
def Category.code : Category → BitVec 3
  | .bit           => 0#3
  | .byte          => 1#3
  | .char          => 2#3
  | .brk           => 3#3
  | .breakRecovery => 4#3
  | .wait          => 5#3
  | .stop          => 6#3

/-- A position that a field of `sw` bits can carry once it is rounded. -/
def portFits (sw : Nat) (q : Position) : Bool :=
  decide (0 ≤ roundPosition q) && decide (roundPosition q < 2 ^ sw)

/-- Format ANN (R76): `{start, end, cat, data}`. None where a rounded position does not fit its field,
about which the spec says nothing (R217; log 11). -/
def annWord (sw : Nat) (a : Annotation) : Option (BitVec (sw + sw + 3 + 8)) :=
  if portFits sw a.startPos && portFits sw a.endPos then
    some (BitVec.ofInt sw (roundPosition a.startPos) ++ BitVec.ofInt sw (roundPosition a.endPos)
      ++ a.cat.code ++ a.data)
  else none

/-- The display rows (R79). -/
inductive Row where
  | rawTiming | byte | ascii
deriving DecidableEq, Repr

/-- The row of a category (R79). -/
def Category.row : Category → Row
  | .byte => .byte
  | .char => .ascii
  | .bit | .brk | .breakRecovery | .wait | .stop => .rawTiming

/-- The long and the short text of an annotation (R80), a free function of category and data. -/
def Annotation.texts (a : Annotation) : String × String := Config.annText a.cat.code a.data

end Sys2Proof.Machine
end

