-- ==== Sys2Proof/Safety.lean ====
section
/-! DEFINITION. The terms claims are written in: the phase table, the invariants between steps, the
EdgeSource contract, traces and runs, and counts over an annotation list. -/

namespace Sys2Proof.Machine

/-- The phase transition table (42_driving_loop.md R157) for the six input operations; `none` is
"refused". BIT0, BIT1 and BREAK are no columns of the table: they arrive on no port and move no phase. -/
def phaseTable : Phase → Instr → Option Phase
  | _,         .reset      => some .idle
  | .idle,     .start cfg  => some (if cfg.sampleRate.isSome then .sync else .configFault)
  | .sync,     .high _     => some .waitFall
  | .waitFall, .fall _     => some .waitRise
  | .waitRise, .rise _     => some .waitFall
  | .sync,     .endInput   => some .done
  | .waitFall, .endInput   => some .done
  | .waitRise, .endInput   => some .done
  | _,         _           => none

/-- The registers that hold their reset values before the first falling edge (10_state.md R30 vi,
60_exceptions.md R182). -/
def atResetValues (s : State) : Prop :=
  s.currentBits = [] ∧ s.byteStartSample = 0 ∧ s.breakCount = .one ∧ s.cursorSample = 0 ∧ s.fallSample = 0

/-- What holds between steps whatever the input words are (R30 i, v, vi; R27; R182; R75). -/
structure RunInv (s : State) : Prop where
  /-- No symbol stands on the SYM interface between steps (R75, R154). -/
  symEmpty      : s.sym = none
  /-- R30 (i). -/
  bitsAtMost7   : s.currentBits.length ≤ 7
  /-- R30 (v). -/
  cursorNonneg  : 0 ≤ s.cursorSample
  /-- R25: between a FALL and the next RISE the cursor is the falling edge. -/
  cursorAtFall  : s.phase = .waitRise → s.cursorSample = (s.fallSample : ℚ)
  /-- R30 (vi), and R182 for `ConfigFault`. -/
  resetValues   : s.phase = .idle ∨ s.phase = .sync ∨ s.phase = .configFault → atResetValues s
  /-- R35: `CFG` holds no value between RESET and START. -/
  cfgEmpty      : s.phase = .idle → s.cfg = none
  /-- R27, R181: decoding runs only with a sample rate. -/
  cfgHasRate    : s.phase = .sync ∨ s.phase = .waitFall ∨ s.phase = .waitRise ∨ s.phase = .done →
                  ∃ sr br, s.cfg = some { sampleRate := some sr, bitRate := br }
  /-- R27, R182: in `ConfigFault` the sample rate is absent. -/
  cfgAbsent     : s.phase = .configFault → ∃ br, s.cfg = some { sampleRate := none, bitRate := br }

/-- The part of the EdgeSource contract the invariants of R30 need: every FALL still to come has an
index of at least 1 (60_exceptions.md R189). -/
def fallsPositive (s : State) : Prop := ∀ x ∈ s.inputs, x.op = 1#3 → 1 ≤ x.t

/-- The invariants of R30 for input words that meet the contract: `RunInv` with clauses (iii) and (iv). -/
structure ContractInv (s : State) : Prop where
  base          : RunInv s
  contract      : fallsPositive s
  /-- R30 (iii). -/
  startIffBits  : s.phase = .idle ∨ s.phase = .sync ∨ s.phase = .waitFall →
                  (s.byteStartSample = 0 ↔ s.currentBits = [])
  /-- R30 (iv). -/
  startInPulse  : s.phase = .waitRise → s.byteStartSample ≠ 0 ∧ 1 ≤ s.fallSample

/-- Where a trace stands (30_encoding.md R84); the number is the least index the next edge may have. -/
inductive TraceStage where
  | reset | start | high | fall (least : Nat) | rise (least : Nat) | ended | faulted
deriving DecidableEq, Repr

/-- A well-formed rest of a trace (R84, R189). After a START without a sample rate nothing but RESET
may follow, and what follows that RESET is again RESET's to begin (log 14). -/
def traceFrom : TraceStage → List Instr → Bool
  | .reset,   .reset :: r    => traceFrom .start r
  | .start,   .start cfg :: r => traceFrom (if cfg.sampleRate.isSome then .high else .faulted) r
  | .high,    .high t :: r   => traceFrom (.fall (t + 1)) r
  | .fall b,  .fall t :: r   => decide (b ≤ t) && traceFrom (.rise (t + 1)) r
  | .rise b,  .rise t :: r   => decide (b ≤ t) && traceFrom (.fall (t + 1)) r
  | .high,    .endInput :: r => traceFrom .ended r
  | .fall _,  .endInput :: r => traceFrom .ended r
  | .rise _,  .endInput :: r => traceFrom .ended r
  | .ended,   []             => true
  | .faulted, []             => true
  | .faulted, .reset :: r    => r.isEmpty || traceFrom .start r
  | _,        _              => false

/-- A well-formed trace (R84). -/
def traceWellFormed (tr : List Instr) : Bool := traceFrom .reset tr

/-- `s` with the input words of `tr`, and no other, on the `ev` port. -/
def deliver (tr : List Instr) (s : State) : State :=
  { s with inputs := tr.filterMap encodeEv, sym := none }

/-- `n` steps, stopping at the first that answers no next state: the fold of `Step` (R15). -/
def runSteps : Nat → State → Host.Outcome State Fault Refusal
  | 0,     s => .next s
  | n + 1, s =>
    match step s with
    | .next t    => runSteps n t
    | .fault r   => .fault r
    | .refused r => .refused r

/-- The outcome of running `tr` from `s`, one step a word. -/
def runTrace (tr : List Instr) (s : State) : Host.Outcome State Fault Refusal :=
  runSteps tr.length (deliver tr s)

/-- The FALL and RISE words of a list of low pulses, each a falling and a rising edge. -/
def pulseWords (ps : List (SampleIndex × SampleIndex)) : List Instr :=
  ps.flatMap fun p => [.fall p.1, .rise p.2]

/-- The pulse classifies as Break under the bit width `w` (R102). -/
def isBreakPulse (w : ℚ) (p : SampleIndex × SampleIndex) : Bool :=
  decide (breakThreshold w < (pulseWidth p.1 p.2 : ℚ))

/-- The bit a pulse that is no break stands for (R102): a long low pulse is a 0. -/
def pulseBit (w : ℚ) (p : SampleIndex × SampleIndex) : Bool :=
  !decide (halfBitWidth w < (pulseWidth p.1 p.2 : ℚ))

/-- How many annotations of a category a list holds. -/
def countCat (c : Category) (anns : List Annotation) : Nat := anns.countP fun a => a.cat = c

/-- The lengths `m_0, ..., m_k` of the break-free segments of a pulse list (95_test_vectors.md Q7). -/
def segmentLengths (w : ℚ) : List (SampleIndex × SampleIndex) → Nat → List Nat
  | [],      m => [m]
  | p :: ps, m => if isBreakPulse w p then m :: segmentLengths w ps 0 else segmentLengths w ps (m + 1)

end Sys2Proof.Machine
end

