-- ==== Sys2Proof/Certificates/Slice0/Obligations.lean ====
section
/-! DEFINITION. The statements for the provers. A statement that gives the next state as a record
`{ s with … }` is also the instruction's frame: every field it does not name, the annotations emitted
before among them, is as it was in `s`. The core has no memory (20_memory.md R50). -/

open Sys2Proof Sys2Proof.Machine

/-! ## Encoding -/

/-- Decode and encode agree, on the word as its fields and on the word as its `SAMPLE_W + 3` bits, for
every width `sw` (R71, R72, R75; the codes are the spec's decisions D3, D11). An instruction whose index
does not fit has no word of that width (log 25). -/
def Obligations.DecodeOfEncodeIsTheInstruction : Prop :=
  ∀ i : Instr, decode (encode i) = .ok i ∧
    ∀ (sw : Nat) (x : EvIn), encodeEv i = some x →
      (i.wellFormed sw = true →
        ∃ w, evToBits sw x = some w ∧ decode (.ev (evOfBits sw w x.cfg)) = .ok i) ∧
      (i.wellFormed sw = false → evToBits sw x = none)

/-- Every EV word, whatever its width, decodes by the number in its top three bits, with its low bits as
`t`; END, START and RESET ignore `t`; codes 6 and 7 are rejected (R71, R72, R73, R82; decisions D3, D14). -/
def Obligations.EvWordDecodesByOpAndT : Prop :=
  ∀ (sw : Nat) (w : BitVec (3 + sw)) (cfg : CfgIn),
    let op := w.toNat / 2 ^ sw
    let t := w.toNat % 2 ^ sw
    let r := decodeEv (evOfBits sw w cfg)
    (op = 0 → r = .ok (.high t)) ∧ (op = 1 → r = .ok (.fall t)) ∧ (op = 2 → r = .ok (.rise t)) ∧
    (op = 3 → r = .ok .endInput) ∧ (op = 4 → r = .ok (.start cfg.toCfg)) ∧ (op = 5 → r = .ok .reset) ∧
    (6 ≤ op → r = .error .reservedOp)

/-- The seven EV words of 95_test_vectors.md 2.7, an EV word of op 6, and the four SYM kinds, as the opcode
table numbers their bits. The model's own, no rule's: the configuration beside the START word (log 8),
the zero operands of the SYM rows (log 18) and the rejection of kind 3 (log 26). -/
def Obligations.WrittenOutWordsDecode : Prop :=
  decodeTableWord 40 0x000000000 = some (.high 0) ∧
  decodeTableWord 40 0x100000064 = some (.fall 100) ∧
  decodeTableWord 40 0x20000006B = some (.rise 107) ∧
  decodeTableWord 40 0x300000000 = some .endInput ∧
  decodeTableWord 40 0x400000000 =
    some (.start { sampleRate := none, bitRate := Config.bitRateDefault }) ∧
  decodeTableWord 40 0x500000000 = some .reset ∧
  decodeTableWord 40 0x1FFFFFFFF = some (.fall 4294967295) ∧
  decodeTableWord 40 0x600000000 = none ∧
  decodeTableWord 8 0b00 = some (.bit0 0 0) ∧
  decodeTableWord 8 0b01 = some (.bit1 0 0) ∧
  decodeTableWord 8 0b10 = some (.brk 0 0) ∧
  decodeTableWord 8 0b11 = none

/-- The CFGIN word of an integer build: the rates are the numbers in the fields, a zero rate that is read
has no meaning, and `sr_valid == 0` makes the sample rate absent whatever its field holds (R74, U3). -/
def Obligations.CfgWordCarriesPositiveRates : Prop :=
  ∀ (rw : Nat) (w : BitVec (1 + rw + rw)),
    let valid := w.toNat / 2 ^ (rw + rw)
    let sr := w.toNat / 2 ^ rw % 2 ^ rw
    let br := w.toNat % 2 ^ rw
    (cfgOfBits rw w = none ↔ br = 0 ∨ (valid = 1 ∧ sr = 0)) ∧
    ∀ c, cfgOfBits rw w = some c →
      c.toCfg.bitRate.val = (br : ℚ) ∧
      (valid = 0 → c.toCfg.sampleRate = none) ∧
      (valid = 1 → ∃ q, c.toCfg.sampleRate = some q ∧ q.val = (sr : ℚ))

/-- The `ann` record is `{start, end, cat, data}` with floored positions, most significant field first,
and exists exactly when both fit (R76, R81; decisions D7, D11; that it is otherwise none is log 11); the
code of each category (R77) and its row (R79; decision D13). -/
def Obligations.AnnWordHoldsFlooredFields : Prop :=
  Category.bit.code = 0#3 ∧ Category.byte.code = 1#3 ∧ Category.char.code = 2#3 ∧
  Category.brk.code = 3#3 ∧ Category.breakRecovery.code = 4#3 ∧ Category.wait.code = 5#3 ∧
  Category.stop.code = 6#3 ∧
  (∀ c : Category, c.row = .byte ↔ c = .byte) ∧
  (∀ c : Category, c.row = .ascii ↔ c = .char) ∧
  (∀ c : Category, c.row = .rawTiming ↔
    c = .bit ∨ c = .brk ∨ c = .breakRecovery ∨ c = .wait ∨ c = .stop) ∧
  ∀ (sw : Nat) (a : Annotation),
    (annWord sw a = none ↔
      ¬ (0 ≤ ⌊a.startPos⌋ ∧ ⌊a.startPos⌋ < 2 ^ sw ∧ 0 ≤ ⌊a.endPos⌋ ∧ ⌊a.endPos⌋ < 2 ^ sw)) ∧
    ∀ v, annWord sw a = some v →
      (v.toNat : Int) = (⌊a.startPos⌋ * 2 ^ sw + ⌊a.endPos⌋) * 2 ^ 11
        + (a.cat.code.toNat : Int) * 2 ^ 8 + (a.data.toNat : Int)

/-! ## The step -/

/-- A step runs the instruction its word decodes to, on what the fetch leaves, and op 6 and 7 are refused
by name (R51, R159). The model's choices: a symbol on the SYM interface goes first (log 3), SYM kind 3 is
refused (log 26), and with no word waiting the step answers the same state (log 4, from R161). -/
def Obligations.StepRunsTheDecodedWord : Prop :=
  (∀ s x i, s.sym = some x → decode (.sym x) = .ok i → step s = exec i { s with sym := none }) ∧
  (∀ s x rest i, s.sym = none → s.inputs = x :: rest → decode (.ev x) = .ok i →
    step s = exec i { s with inputs := rest }) ∧
  (∀ s x rest, s.sym = none → s.inputs = x :: rest → 6 ≤ x.op.toNat → step s = .refused .reservedOp) ∧
  (∀ s x, s.sym = some x → x.kind = 3#2 → step s = .refused .reservedKind) ∧
  (∀ s, s.sym = none → s.inputs = [] → step s = .next s)

/-- Input words are consumed strictly in the order given, each exactly once (R51). -/
def Obligations.InputsAreConsumedInOrder : Prop :=
  ∀ s t, s.sym = none → step s = .next t →
    (s.inputs = [] ∧ t = s) ∨ ∃ x, s.inputs = x :: t.inputs

/-- The output only grows at its end, by 0 to 4 annotations a step (R52, R59; decision D21). -/
def Obligations.OutputGrowsAtItsEnd : Prop :=
  ∀ s t, step s = .next t → ∃ new, t.ann = s.ann ++ new ∧ new.length ≤ 4

/-- Which operations can change which register, and which none changes but the fetch (R36). -/
def Obligations.OnlyListedOperationsWriteARegister : Prop :=
  ∀ i s t, exec i s = .next t →
    (t.breakCount ≠ s.breakCount → (∃ st now, i = .brk st now) ∨ (∃ n, i = .rise n) ∨ i = .reset) ∧
    (t.fallSample ≠ s.fallSample → (∃ n, i = .fall n) ∨ i = .reset) ∧
    (t.cfg ≠ s.cfg → (∃ c, i = .start c) ∨ i = .reset) ∧
    (t.phase ≠ s.phase → i.onEvPort = true) ∧
    (t.currentBits ≠ s.currentBits → (∃ n, i = .rise n) ∨ i = .reset ∨ i.onEvPort = false) ∧
    (t.byteStartSample ≠ s.byteStartSample →
      (∃ n, i = .fall n) ∨ (∃ n, i = .rise n) ∨ i = .reset ∨ i.onEvPort = false) ∧
    (t.cursorSample ≠ s.cursorSample →
      (∃ n, i = .fall n) ∨ (∃ n, i = .rise n) ∨ i = .reset ∨ i.onEvPort = false) ∧
    (t.ann ≠ s.ann → (∃ n, i = .rise n) ∨ i.onEvPort = false) ∧
    t.inputs = s.inputs ∧ t.sym = s.sym

/-- The configuration inputs are read by START alone: with any other word, what stands on the `cfg` port
has no effect; and only START and RESET change what was latched (R27, R219). -/
def Obligations.ConfigurationIsReadAtStartOnly : Prop :=
  ∀ s x rest (c : CfgIn), s.sym = none → s.inputs = x :: rest → x.op ≠ 4#3 →
    step { s with inputs := { x with cfg := c } :: rest } = step s ∧
    ∀ t, step s = .next t → x.op ≠ 5#3 → t.cfg = s.cfg

/-! ## Reset and power-on -/

/-- RESET runs in every state and gives every register its value of R35 (those of the cursor, the latch
and the phase are the spec's decision D10), leaves the streams, clears the fault output, and two
RESETs are one; it is what `State.reset` holds. -/
def Obligations.ResetSetsEveryRegister : Prop :=
  ∀ s, ∃ t, exec .reset s = .next t ∧
    t.currentBits = [] ∧ t.byteStartSample = 0 ∧ t.breakCount = .one ∧ t.cursorSample = 0 ∧
    t.fallSample = 0 ∧ t.phase = .idle ∧ t.cfg = none ∧
    t.inputs = s.inputs ∧ t.sym = s.sym ∧ t.ann = s.ann ∧
    fltOf t = { fault := false, code := 0#2 } ∧ statusOf t = 0#3 ∧
    exec .reset t = .next t ∧
    t = { State.reset with inputs := s.inputs, sym := s.sym, ann := s.ann }

/-- After power-on only RESET is run, and it gives the reset state; every other word is refused
(R35, R156, R210; decisions D10, D17). -/
def Obligations.PowerOnRunsOnlyReset : Prop :=
  ∀ x rest,
    (x.op = 5#3 → stepPowered (.noValue (x :: rest)) = .next (.running { State.reset with inputs := rest })) ∧
    (x.op.toNat < 5 → stepPowered (.noValue (x :: rest)) = .refused .noRegisterValue) ∧
    (5 < x.op.toNat → stepPowered (.noValue (x :: rest)) = .refused .reservedOp)

/-- No run can tell the reset values of `cursor_sample` and `fall_sample`: from a state that is in no
low pulse, any input gives the same outcome and output whatever the two hold (R211). -/
def Obligations.CursorAndLatchAreUnobservableOutsideAPulse : Prop :=
  ∀ (tr : List Instr) (s : State) (q : Position) (n : SampleIndex), s.phase ≠ .waitRise →
    (∀ r, runTrace tr s = .refused r →
      runTrace tr { s with cursorSample := q, fallSample := n } = .refused r) ∧
    ∀ t, runTrace tr s = .next t →
      ∃ u, runTrace tr { s with cursorSample := q, fallSample := n } = .next u ∧
        u.ann = t.ann ∧ u.phase = t.phase ∧ u.cfg = t.cfg ∧ u.currentBits = t.currentBits ∧
        u.byteStartSample = t.byteStartSample ∧ u.breakCount = t.breakCount

/-! ## START and the one exception -/

/-- START (R151): op 4 with any `t`; in `Idle` it latches the configuration and begins the synchronization wait, or, without
a sample rate, raises ConfigurationError; in any other phase it is refused. -/
def Obligations.StartLatchesTheConfiguration : Prop :=
  ∀ (c : Cfg) (s : State),
    (s.phase = .idle → ∀ sr, c.sampleRate = some sr →
      exec (.start c) s =
        .next { s with cfg := some { sampleRate := some sr, bitRate := c.bitRate }, phase := .sync }) ∧
    (s.phase = .idle → c.sampleRate = none →
      exec (.start c) s =
        .next { s with cfg := some { sampleRate := none, bitRate := c.bitRate }, phase := .configFault } ∧
      specOutcome s (exec (.start c) s) = .configurationError
        { s with cfg := some { sampleRate := none, bitRate := c.bitRate }, phase := .configFault }) ∧
    (s.phase ≠ .idle → exec (.start c) s = .refused .wrongPhase) ∧
    (∀ (n : SampleIndex) (p : CfgIn), p.toCfg = c → decodeEv { op := 4#3, t := n, cfg := p } = .ok (.start c)) ∧
    decodeEv { op := 4#3, t := 0, cfg := cfgInOf c } = .ok (.start c)

/-- Taking ConfigurationError (R182): the phase, the absent sample rate, the `fault` port, no annotation,
no other register changed, and no HIGH, FALL or RISE word is consumed from then on. -/
def Obligations.ConfigurationErrorEntry : Prop :=
  ∀ (c : Cfg) (s : State), s.phase = .idle → c.sampleRate = none →
    ∃ t, exec (.start c) s = .next t ∧
      t.phase = .configFault ∧ t.cfg = some { sampleRate := none, bitRate := c.bitRate } ∧
      fltOf t = { fault := true, code := 1#2 } ∧ (fltOf t).toBits = 0b101#3 ∧
      t.ann = s.ann ∧ t.inputs = s.inputs ∧
      t.currentBits = s.currentBits ∧ t.byteStartSample = s.byteStartSample ∧
      t.breakCount = s.breakCount ∧ t.cursorSample = s.cursorSample ∧ t.fallSample = s.fallSample ∧
      ∀ n, exec (.high n) t = .refused .wrongPhase ∧ exec (.fall n) t = .refused .wrongPhase ∧
        exec (.rise n) t = .refused .wrongPhase

/-- In `ConfigFault` and in `Done` every input word but RESET is refused, and RESET leads to `Idle` with
the fault output low (R183, R157; decisions D15, D16). -/
def Obligations.OnlyResetLeavesFaultAndDone : Prop :=
  ∀ i s, s.phase = .configFault ∨ s.phase = .done → i.onEvPort = true →
    (i = .reset ∧ ∃ t, exec i s = .next t ∧ t.phase = .idle ∧ (fltOf t).fault = false) ∨
    (i ≠ .reset ∧ exec i s = .refused .wrongPhase)

/-- The `fault` port is 1 with code 1 exactly while the phase is `ConfigFault`, else 0 with code 0
(R86; decision D15), and the `status` port shows the phase's code, 0 to 5, without loss (R26, R70;
decisions D1, D2). -/
def Obligations.FaultAndStatusPortsFollowPhase : Prop :=
  (∀ s, ((fltOf s).fault = true ↔ s.phase = .configFault) ∧
        ((fltOf s).fault = true → (fltOf s).code = 1#2) ∧
        ((fltOf s).fault = false → (fltOf s).code = 0#2)) ∧
  (∀ s, (s.phase = .idle → statusOf s = 0#3) ∧ (s.phase = .sync → statusOf s = 1#3) ∧
        (s.phase = .waitFall → statusOf s = 2#3) ∧ (s.phase = .waitRise → statusOf s = 3#3) ∧
        (s.phase = .done → statusOf s = 4#3) ∧ (s.phase = .configFault → statusOf s = 5#3)) ∧
  (∀ s, (statusOf s).toNat < 6) ∧
  (∀ s t, statusOf s = statusOf t ↔ s.phase = t.phase)

/-- A run without a sample rate: START raises ConfigurationError, the output is empty, and whatever
input word but RESET follows is refused (R181, R182; S7, Q6). -/
def Obligations.NoSampleRateMeansNoOutput : Prop :=
  ∀ (c : Cfg) (s : State), c.sampleRate = none →
    (∃ t, runTrace [.reset, .start c] s = .next t ∧ t.ann = s.ann ∧ (fltOf t).fault = true) ∧
    ∀ i tr, i.onEvPort = true → i ≠ .reset →
      runTrace (.reset :: .start c :: i :: tr) s = .refused .wrongPhase

/-! ## The driving loop -/

/-- The phase transition table decides, for each of the six input operations in each phase, whether it
runs and what the phase is then (R157; derived in the spec from R151 to R156). -/
def Obligations.PhaseTableDecides : Prop :=
  ∀ i s, i.onEvPort = true →
    (∀ p, phaseTable s.phase i = some p → ∃ t, exec i s = .next t ∧ t.phase = p) ∧
    (phaseTable s.phase i = none → exec i s = .refused .wrongPhase)

/-- HIGH (R152): op 0; it ends the synchronization wait, changes `phase` only, and `t` is not stored. -/
def Obligations.HighEndsSynchronization : Prop :=
  ∀ (n : SampleIndex) (s : State),
    (s.phase = .sync → exec (.high n) s = .next { s with phase := .waitFall }) ∧
    (s.phase ≠ .sync → exec (.high n) s = .refused .wrongPhase) ∧
    ∀ p, decodeEv { op := 0#3, t := n, cfg := p } = .ok (.high n)

/-- FALL (R153): the latch, the cursor (the spec's decision D8), the byte-start candidate when it holds
the sentinel 0, and the phase; nothing else. -/
def Obligations.FallLatchesTheEdge : Prop :=
  ∀ (n : SampleIndex) (s : State),
    (s.phase = .waitFall → s.byteStartSample = 0 →
      exec (.fall n) s =
        .next { s with fallSample := n, cursorSample := (n : ℚ), byteStartSample := n, phase := .waitRise }) ∧
    (s.phase = .waitFall → s.byteStartSample ≠ 0 →
      exec (.fall n) s = .next { s with fallSample := n, cursorSample := (n : ℚ), phase := .waitRise }) ∧
    (s.phase ≠ .waitFall → exec (.fall n) s = .refused .wrongPhase)

/-- RISE (R154): op 2; in `WaitRise` it always runs, moves to `WaitFall`, emits 1 to 4 annotations, and is
the symbol operation that the classification of the pulse selects, with this edge as `now`. -/
def Obligations.RiseClassifiesAndDispatches : Prop :=
  ∀ (n : SampleIndex) (s : State),
    let w := bitWidth s
    let d : Int := (n : Int) - (s.fallSample : Int)
    let u := { s with phase := .waitFall }
    (s.phase = .waitRise →
      (w * (6 / 5) < (d : ℚ) → exec (.rise n) s = exec (.brk s.fallSample n) u) ∧
      (w / 2 < (d : ℚ) → (d : ℚ) ≤ w * (6 / 5) → exec (.rise n) s = exec (.bit0 s.fallSample d) u) ∧
      ((d : ℚ) ≤ w / 2 → exec (.rise n) s = exec (.bit1 s.fallSample d) u) ∧
      ∃ t new, exec (.rise n) s = .next t ∧ t.phase = .waitFall ∧ t.fallSample = s.fallSample ∧
        t.ann = s.ann ++ new ∧ 1 ≤ new.length ∧ new.length ≤ 4) ∧
    (s.phase ≠ .waitRise → exec (.rise n) s = .refused .wrongPhase) ∧
    ∀ p, decodeEv { op := 2#3, t := n, cfg := p } = .ok (.rise n)

/-- END (R155): op 3 with any `t`; it is accepted in the three waits, changes `phase` only, and emits nothing. -/
def Obligations.EndStopsTheLoop : Prop :=
  ∀ s : State,
    (s.phase = .sync ∨ s.phase = .waitFall ∨ s.phase = .waitRise →
      exec .endInput s = .next { s with phase := .done }) ∧
    (s.phase = .idle ∨ s.phase = .done ∨ s.phase = .configFault →
      exec .endInput s = .refused .wrongPhase) ∧
    ∀ n p, decodeEv { op := 3#3, t := n, cfg := p } = .ok .endInput

/-! ## The timing classifier -/

/-- The derived configuration values where a sample rate is present (R28), and their order (R100). -/
def Obligations.DerivedConfigurationValues : Prop :=
  (∀ (sr br : PosRat),
    bitWidthOf (some { sampleRate := some sr, bitRate := br }) = sr.val / br.val) ∧
  (∀ w : ℚ, halfBitWidth w = w / 2 ∧ breakThreshold w = w * (6 / 5)) ∧
  ∀ (s : State) (sr br : PosRat), s.cfg = some { sampleRate := some sr, bitRate := br } →
    bitWidth s = sr.val / br.val ∧
    0 < halfBitWidth (bitWidth s) ∧ halfBitWidth (bitWidth s) < breakThreshold (bitWidth s)

/-- CLASSIFY (R102) with the exact boundaries of R103: strict comparisons, equality going to the class of
the shorter pulses, for every positive bit width and every integer width. -/
def Obligations.ClassifyByStrictThresholds : Prop :=
  ∀ (w : ℚ) (st : SampleIndex) (d : Int), 0 < w →
    (classify w st d = .brk st ↔ w * (6 / 5) < (d : ℚ)) ∧
    (classify w st d = .bit false st d ↔ w / 2 < (d : ℚ) ∧ (d : ℚ) ≤ w * (6 / 5)) ∧
    (classify w st d = .bit true st d ↔ (d : ℚ) ≤ w / 2) ∧
    ((d : ℚ) = w * (6 / 5) → classify w st d = .bit false st d) ∧
    ((d : ℚ) = w / 2 → classify w st d = .bit true st d)

/-- The comparisons without division and those against two integer constants (R104, which the spec
derives from R102). -/
def Obligations.ClassifyInIntegerForm : Prop :=
  ∀ (sr br : PosRat) (st : SampleIndex) (d : Int),
    let w := bitWidthOf (some { sampleRate := some sr, bitRate := br })
    (classify w st d = .brk st ↔ 6 * sr.val < 5 * (d : ℚ) * br.val) ∧
    (classify w st d = .bit false st d ↔
      ¬ 6 * sr.val < 5 * (d : ℚ) * br.val ∧ sr.val < 2 * (d : ℚ) * br.val) ∧
    (classify w st d = .bit true st d ↔ ¬ sr.val < 2 * (d : ℚ) * br.val) ∧
    (breakThreshold w < (d : ℚ) ↔ ⌊breakThreshold w⌋ + 1 ≤ d) ∧
    (halfBitWidth w < (d : ℚ) ↔ ⌊halfBitWidth w⌋ + 1 ≤ d)

/-- The classifier is total: a width of 0 or below, which the EdgeSource contract excludes, is a Bit(1),
and so is a one-sample pulse once there are two samples a bit (R105, which the spec derives). For a `CFG`
without a sample rate, to which R28 and R102 give no width, this is the model's: it rests on the free
positive width of log 6 (DESIGN CHOICE). -/
def Obligations.NoPulseIsUnclassifiable : Prop :=
  ∀ (cfg : Option Cfg) (st : SampleIndex) (d : Int),
    (d ≤ 0 → classify (bitWidthOf cfg) st d = .bit true st d) ∧
    (2 ≤ bitWidthOf cfg → classify (bitWidthOf cfg) st 1 = .bit true st 1) ∧
    (classify (bitWidthOf cfg) st d = .brk st ∨ classify (bitWidthOf cfg) st d = .bit false st d ∨
      classify (bitWidthOf cfg) st d = .bit true st d)

/-- The table of R109 for its four configurations (derived in the spec from R104): Bit(1) up to `a`,
Bit(0) up to `b`, Break above. -/
def Obligations.BoundariesOfFourConfigurations : Prop :=
  ∀ (st : SampleIndex) (d : Int),
    let bounds := fun (sr br : ℚ) (a b : Int) =>
      (classify (sr / br) st d = .bit true st d ↔ d ≤ a) ∧
      (classify (sr / br) st d = .bit false st d ↔ a < d ∧ d ≤ b) ∧
      (classify (sr / br) st d = .brk st ↔ b < d)
    bounds 1000000 100000 5 12 ∧ bounds 1000000 98425 5 12 ∧
    bounds 12000000 98425 60 146 ∧ bounds 24000000 98425 121 292

/-- A legal pulse can be a Bit(1) only if there are at least two samples a bit (R218, derived there). -/
def Obligations.BitOneNeedsTwoSamplesPerBit : Prop :=
  ∀ (sr br : PosRat) (st : SampleIndex),
    (∃ d : Int, 1 ≤ d ∧
      classify (bitWidthOf (some { sampleRate := some sr, bitRate := br })) st d = .bit true st d) ↔
    2 * br.val ≤ sr.val

/-! ## The symbol assembler -/

/-- `Pack` (R125, R54): the first-received bit is the most significant, the value fits a byte, and no bit
is lost. -/
def Obligations.PackIsMostSignificantFirst : Prop :=
  (∀ b0 b1 b2 b3 b4 b5 b6 b7 : Bool, pack [b0, b1, b2, b3, b4, b5, b6, b7] =
    b0.toNat * 128 + b1.toNat * 64 + b2.toNat * 32 + b3.toNat * 16 + b4.toNat * 8 + b5.toNat * 4 +
      b6.toNat * 2 + b7.toNat) ∧
  (∀ bits, bits.length = 8 →
    pack bits ≤ 255 ∧ (packByte bits).toNat = pack bits ∧
    ∀ (i : Nat) (h : i < bits.length), (packByte bits).getLsbD (7 - i) = bits[i])

/-- BIT0 and BIT1 when the byte is not completed (R121, R122, R123): the bit is appended and one Bit
annotation of one bit width is placed at the cursor; every other register keeps its value. -/
def Obligations.BitBelowEightIsAppended : Prop :=
  ∀ (s : State) (st : SampleIndex) (d : Int), s.currentBits.length ≠ 7 →
    exec (.bit0 st d) s =
      .next { s with
        currentBits := s.currentBits ++ [false]
        ann := s.ann ++ [{ startPos := s.cursorSample, endPos := s.cursorSample + bitWidth s,
                           cat := .bit, data := 0x00#8 }] } ∧
    exec (.bit1 st d) s =
      .next { s with
        currentBits := s.currentBits ++ [true]
        ann := s.ann ++ [{ startPos := s.cursorSample, endPos := s.cursorSample + bitWidth s,
                           cat := .bit, data := 0x01#8 }] }

/-- The eighth BIT0 or BIT1 (R124): Bit, Byte, Char, Stop in that order, the byte cleared and unset, the
cursor advanced by 3/10 of a bit width; every other register keeps its value, `break_count` among them. -/
def Obligations.EighthBitCompletesTheByte : Prop :=
  ∀ (s : State) (st : SampleIndex) (d : Int), s.currentBits.length = 7 →
    let w := bitWidth s
    let c := s.cursorSample
    let after := fun (b : Bool) (data : Byte) => ({ s with
      currentBits := []
      byteStartSample := 0
      cursorSample := c + 3 / 10 * w
      ann := s.ann ++
        [{ startPos := c, endPos := c + w, cat := .bit, data := data },
         { startPos := s.byteStartSample, endPos := c + w, cat := .byte,
           data := packByte (s.currentBits ++ [b]) },
         { startPos := s.byteStartSample, endPos := c + w, cat := .char,
           data := packByte (s.currentBits ++ [b]) },
         { startPos := c + 3 / 10 * w, endPos := c + 16 / 10 * w, cat := .stop, data := 0x00#8 }] } : State)
    exec (.bit0 st d) s = .next (after false 0x00#8) ∧
    exec (.bit1 st d) s = .next (after true 0x01#8)

/-- BREAK (R126; SYM kind 2), for the first and for the second break of a pair: Break from the cursor to `now`,
BreakRecovery of 9/20 of a bit width, Wait to 2 bit widths only for the second; the byte in progress is
dropped, the cursor is `now`, the count moves on, and nothing else changes. -/
def Obligations.BreakAbortsTheByteAndPairs : Prop :=
  ∀ (s : State) (st now : SampleIndex),
    let w := bitWidth s
    let breakAnn : Annotation := { startPos := s.cursorSample, endPos := (now : ℚ), cat := .brk, data := 0x00#8 }
    let recoveryAnn : Annotation :=
      { startPos := (now : ℚ), endPos := (now : ℚ) + 9 / 20 * w, cat := .breakRecovery, data := 0x00#8 }
    let waitAnn : Annotation :=
      { startPos := (now : ℚ) + 9 / 20 * w, endPos := (now : ℚ) + 2 * w, cat := .wait, data := 0x00#8 }
    (s.breakCount = .one →
      exec (.brk st now) s =
        .next { s with
          currentBits := [], byteStartSample := 0, breakCount := .two, cursorSample := (now : ℚ)
          ann := s.ann ++ [breakAnn, recoveryAnn] }) ∧
    (s.breakCount = .two →
      exec (.brk st now) s =
        .next { s with
          currentBits := [], byteStartSample := 0, breakCount := .one, cursorSample := (now : ℚ)
          ann := s.ann ++ [breakAnn, recoveryAnn, waitAnn] }) ∧
    ∀ d, decodeSym { kind := 2#2, start := st, dur := d, now := now } = .ok (.brk st now)

/-- Partial-byte discard (R128): after a BREAK no bit is held whatever was, no Byte and no Char is
emitted, what was emitted stays, and the next bit begins a new byte. -/
def Obligations.BreakDiscardsAPartialByte : Prop :=
  ∀ (s : State) (st now : SampleIndex), ∃ t new, exec (.brk st now) s = .next t ∧
    t.currentBits = [] ∧ t.ann = s.ann ++ new ∧ countCat .byte new = 0 ∧ countCat .char new = 0 ∧
    ∀ st' d, (∃ u, exec (.bit0 st' d) t = .next u ∧ u.currentBits = [false]) ∧
             (∃ u, exec (.bit1 st' d) t = .next u ∧ u.currentBits = [true])

/-- How many annotations each operation emits, which, and in what order (R129). -/
def Obligations.AnnotationsPerOperation : Prop :=
  let bitCats := fun (s : State) =>
    if s.currentBits.length = 7 then [Category.bit, .byte, .char, .stop] else [.bit]
  let breakCats := fun (s : State) =>
    if s.breakCount = .two then [Category.brk, .breakRecovery, .wait] else [.brk, .breakRecovery]
  ∀ i s t, exec i s = .next t → ∃ new, t.ann = s.ann ++ new ∧
    match i with
    | .bit0 _ _ | .bit1 _ _ => new.map Annotation.cat = bitCats s
    | .brk _ _ => new.map Annotation.cat = breakCats s
    | .rise n =>
      new.map Annotation.cat =
        if breakThreshold (bitWidth s) < (pulseWidth s.fallSample n : ℚ) then breakCats s else bitCats s
    | .high _ | .fall _ | .endInput | .start _ | .reset => new = []

/-- The assembler never fails (R130): BIT0, BIT1 and BREAK run in every state and emit at least one
annotation, and no operation but START raises ConfigurationError. -/
def Obligations.AssemblerNeverFails : Prop :=
  (∀ (s : State) (st now : SampleIndex) (d : Int),
    (∃ t, exec (.bit0 st d) s = .next t ∧ s.ann.length < t.ann.length) ∧
    (∃ t, exec (.bit1 st d) s = .next t ∧ s.ann.length < t.ann.length) ∧
    (∃ t, exec (.brk st now) s = .next t ∧ s.ann.length < t.ann.length)) ∧
  ∀ i s t, specOutcome s (exec i s) = .configurationError t → ∃ c, i = .start c

/-- A pulse with falling edge `f` and rising edge `r`, from a state that waits for a falling edge, puts
its annotations where R133 (derived in the spec; cursor by decision D8) says. -/
def Obligations.PulseAnnotationGeometry : Prop :=
  ∀ (s : State) (f r : SampleIndex), s.phase = .waitFall →
    let w := bitWidth s
    let b := pulseBit w (f, r)
    let start : ℚ := if s.byteStartSample = 0 then (f : ℚ) else (s.byteStartSample : ℚ)
    let bitAnn : Annotation := { startPos := (f : ℚ), endPos := (f : ℚ) + w, cat := .bit, data := bitData b }
    let value := packByte (s.currentBits ++ [b])
    ∃ t, runTrace [.fall f, .rise r] s = .next t ∧ t.phase = .waitFall ∧ t.fallSample = f ∧
      (isBreakPulse w (f, r) = false → s.currentBits.length ≠ 7 → t.ann = s.ann ++ [bitAnn]) ∧
      (isBreakPulse w (f, r) = false → s.currentBits.length = 7 → t.ann = s.ann ++
        [bitAnn, { startPos := start, endPos := (f : ℚ) + w, cat := .byte, data := value },
         { startPos := start, endPos := (f : ℚ) + w, cat := .char, data := value },
         { startPos := (f : ℚ) + 3 / 10 * w, endPos := (f : ℚ) + 8 / 5 * w, cat := .stop, data := 0#8 }]) ∧
      (isBreakPulse w (f, r) = true → t.ann = s.ann ++
        [{ startPos := (f : ℚ), endPos := (r : ℚ), cat := .brk, data := 0#8 },
         { startPos := (r : ℚ), endPos := (r : ℚ) + 9 / 20 * w, cat := .breakRecovery, data := 0#8 }] ++
        if s.breakCount = .two then
          [{ startPos := (r : ℚ) + 9 / 20 * w, endPos := (r : ℚ) + 2 * w, cat := .wait, data := 0#8 }]
        else [])

/-! ## Invariants -/

/-- The reset state meets the invariant of every run. -/
def Obligations.ResetMeetsInvariant : Prop := RunInv State.reset

/-- Every step keeps it, whatever the input words are (R30 i, v, vi; R25, R27, R182). -/
def Obligations.StepKeepsInvariant : Prop :=
  ∀ s t, RunInv s → step s = .next t → RunInv t

/-- The reset state meets the invariants of R30 (with no word waiting the contract holds). -/
def Obligations.ResetMeetsContractInvariant : Prop := ContractInv State.reset

/-- Every step keeps the invariants of R30 while the words still to come meet the EdgeSource contract. -/
def Obligations.StepKeepsContractInvariant : Prop :=
  ∀ s t, ContractInv s → step s = .next t → ContractInv t

/-- In every state a run reaches, a RISE is classified with the configured bit width: the free value of
log 6 is never read. -/
def Obligations.DecodingUsesTheConfiguredBitWidth : Prop :=
  ∀ s t x rest n, RunInv s → s.inputs = x :: rest → decodeEv x = .ok (.rise n) → step s = .next t →
    ∃ sr br : PosRat, s.cfg = some { sampleRate := some sr, bitRate := br } ∧
      bitWidth s = sr.val / br.val

/-! ## Runs -/

/-- A well-formed trace is never refused, from any state: every word of it runs (R84, R158; decision D14). -/
def Obligations.WellFormedTraceRuns : Prop :=
  ∀ (tr : List Instr) (s : State), traceWellFormed tr = true →
    ∃ t, runTrace tr s = .next t ∧ t.inputs = [] ∧ t.sym = none ∧
      (t.phase = .done ∨ t.phase = .configFault ∨ t.phase = .idle)

/-- Idempotence (R65, S2, Q2): after RESET the same words give the same outcome, the same annotations and
the same registers, whatever the core did before. -/
def Obligations.ReplayAfterResetIsIdentical : Prop :=
  ∀ (tr : List Instr) (s1 s2 : State),
    (∀ r, runTrace (.reset :: tr) s1 = .refused r → runTrace (.reset :: tr) s2 = .refused r) ∧
    ∀ t1, runTrace (.reset :: tr) s1 = .next t1 →
      ∃ t2 new, runTrace (.reset :: tr) s2 = .next t2 ∧
        t1.ann = s1.ann ++ new ∧ t2.ann = s2.ann ++ new ∧
        { t1 with ann := [] } = { t2 with ann := [] }

/-- Eight consecutive bits make exactly one byte (R56, S3, Q3): from a state that waits for a falling edge
and holds no bit, eight pulses that are no break emit eight Bit, one Byte, one Char and one Stop; Byte
and Char start at the first falling edge (R131) and carry `Pack` of the bits; nothing is held after. -/
def Obligations.EightPulsesMakeOneByte : Prop :=
  ∀ (s : State) (ps : List (SampleIndex × SampleIndex)),
    s.phase = .waitFall → s.currentBits = [] → s.byteStartSample = 0 → ps.length = 8 →
    (∀ p ∈ ps, 1 ≤ p.1 ∧ isBreakPulse (bitWidth s) p = false) →
    let w := bitWidth s
    let first : ℚ := (ps.headD (0, 0)).1
    let last : ℚ := (ps.getLastD (0, 0)).1
    let value := packByte (ps.map (pulseBit w))
    ∃ t new, runTrace (pulseWords ps) s = .next t ∧ t.ann = s.ann ++ new ∧ new.length = 11 ∧
      countCat .bit new = 8 ∧ countCat .stop new = 1 ∧
      new.filter (fun a => a.cat = .byte) =
        [{ startPos := first, endPos := last + w, cat := .byte, data := value }] ∧
      new.filter (fun a => a.cat = .char) =
        [{ startPos := first, endPos := last + w, cat := .char, data := value }] ∧
      t.currentBits = [] ∧ t.byteStartSample = 0 ∧ t.breakCount = s.breakCount ∧ t.phase = .waitFall

/-- The counting law (Q4, Q7; R127, R128, R129): a run from RESET whose pulses fall into break-free
segments of `m_0, ..., m_k` bits emits `m_0 + ... + m_k` Bit annotations, `m_0 / 8 + ... + m_k / 8` Byte,
as many Char and Stop, `k` Break and BreakRecovery, and `k / 2` Wait; `break_count` is the parity of `k`. -/
def Obligations.AnnotationCountsOfARun : Prop :=
  ∀ (s : State) (sr br : PosRat) (h : SampleIndex) (ps : List (SampleIndex × SampleIndex)),
    let w := sr.val / br.val
    let ms := segmentLengths w ps 0
    let k := ps.countP (isBreakPulse w)
    ∃ t new,
      runTrace ([.reset, .start { sampleRate := some sr, bitRate := br }, .high h] ++ pulseWords ps
        ++ [.endInput]) s = .next t ∧
      t.ann = s.ann ++ new ∧ t.phase = .done ∧
      countCat .bit new = ms.sum ∧
      countCat .byte new = (ms.map (· / 8)).sum ∧
      countCat .char new = (ms.map (· / 8)).sum ∧
      countCat .stop new = (ms.map (· / 8)).sum ∧
      countCat .brk new = k ∧ countCat .breakRecovery new = k ∧ countCat .wait new = k / 2 ∧
      t.currentBits.length = ms.getLastD 0 % 8 ∧
      (t.breakCount = .one ↔ k % 2 = 0)

/-- A step of a build of `sw`-bit indices is the normative step exactly as long as the index of the word
and every annotation end of the step stay below `2 ^ sw`; otherwise it is refused, never wrapped
(R217; decision D4). -/
def Obligations.BoundedStepAgreesOrRefuses : Prop :=
  ∀ (sw : Nat) (s : State) (x : EvIn) (rest : List EvIn) (t : State),
    s.sym = none → s.inputs = x :: rest → step s = .next t →
    let fits := (x.op.toNat ≤ 2 → x.t < 2 ^ sw) ∧
      ∀ a ∈ t.ann.drop s.ann.length, a.endPos < (2 : ℚ) ^ sw
    (fits → stepBounded sw s = .next t) ∧ (¬ fits → stepBounded sw s = .refused .indexWidth)

/-! ## The reference EdgeSource -/

/-- The words of the reference front end meet the EdgeSource contract by construction, for every line
(R189, R192; decisions D9, D19). -/
def Obligations.ReferenceEdgeSourceMeetsContract : Prop :=
  ∀ (samples : List Bool) (c : Cfg), c.sampleRate.isSome = true →
    traceWellFormed (.reset :: .start c :: edgeSource samples) = true

/-- With the reference front end the width of a pulse is the count of consecutive low samples: its edges
enclose low samples only, with a high sample on either side (R192; decision D19). -/
def Obligations.ReferencePulseIsARunOfLowSamples : Prop :=
  ∀ (samples : List Bool) (pre post : List Instr) (f r : Nat),
    edgeSource samples = pre ++ .fall f :: .rise r :: post →
    1 ≤ f ∧ f < r ∧ samples[f - 1]? = some true ∧ samples[r]? = some true ∧
      ∀ n, f ≤ n → n < r → samples[n]? = some false

/-- The answers of the reference front end are the least indices that R192 asks for, and END comes exactly
where no such index is left in the samples; nothing follows END (decision D19). -/
def Obligations.ReferenceAnswersAreLeast : Prop :=
  ∀ samples : List Bool,
    let high : Nat → Prop := fun n => samples[n]? = some true
    let falling : Nat → Prop := fun n => 1 ≤ n ∧ samples[n - 1]? = some true ∧ samples[n]? = some false
    let rising : Nat → Prop := fun n => 1 ≤ n ∧ samples[n - 1]? = some false ∧ samples[n]? = some true
    let leastFrom := fun (b : Nat) (P : Nat → Prop) (n : Nat) => b ≤ n ∧ P n ∧ ∀ m, b ≤ m → m < n → ¬ P m
    ((∃ n rest, edgeSource samples = .high n :: rest ∧ leastFrom 0 high n) ∨
      (edgeSource samples = [.endInput] ∧ ∀ n, ¬ high n)) ∧
    (edgeSource samples).getLast? = some .endInput ∧
    ∀ pre i j post, edgeSource samples = pre ++ i :: j :: post →
      match i with
      | .high p | .rise p =>
        (∃ n, j = .fall n ∧ leastFrom (p + 1) falling n) ∨ (j = .endInput ∧ ∀ m, p < m → ¬ falling m)
      | .fall p =>
        (∃ n, j = .rise n ∧ leastFrom (p + 1) rising n) ∨ (j = .endInput ∧ ∀ m, p < m → ¬ rising m)
      | .endInput | .start _ | .reset | .bit0 _ _ | .bit1 _ _ | .brk _ _ => False
end

