-- ==== Sys2Proof/Laws/Decode.lean ====
section
/-! SUPPORT. When an EV word of a given width exists (30_encoding.md R71; log 25). -/

namespace Sys2Proof

theorem evToBits_of_lt {sw : Nat} {x : EvIn} (h : x.t < 2 ^ sw) :
    evToBits sw x = some (x.op ++ BitVec.ofNat sw x.t) := if_pos h

theorem evToBits_eq_none_iff {sw : Nat} {x : EvIn} : evToBits sw x = none ↔ 2 ^ sw ≤ x.t := by
  rw [evToBits]
  split
  · next h => simp [h]
  · next h => simpa using h

end Sys2Proof
end

