-- ==== Sys2Proof/Laws/EdgeSource.lean ====
section
/-! SUPPORT. What an answer of the reference front end is (60_exceptions.md R192), and what one unfolding
of its words can be. -/

namespace Sys2Proof.Machine

/-- An answering sample lies within the samples. -/
theorem lt_length_of_answersWait {samples : List Bool} {wait : EdgeWait} {p n : Nat}
    (h : answersWait samples wait p n = true) : n < samples.length := by
  have : ∃ b, samples[n]? = some b := by
    cases wait <;> simp only [answersWait, Bool.and_eq_true, beq_iff_eq] at h
    · exact ⟨_, h⟩
    · exact ⟨_, h.2⟩
    · exact ⟨_, h.2⟩
  obtain ⟨b, hb⟩ := this
  exact (List.getElem?_eq_some_iff.1 hb).1

/-- The answer is the least sample that answers the wait. -/
theorem edgeAnswer_eq_some {samples : List Bool} {wait : EdgeWait} {p n : Nat} :
    edgeAnswer samples wait p = some n ↔
      answersWait samples wait p n = true ∧ ∀ m < n, answersWait samples wait p m = false := by
  unfold edgeAnswer
  rw [List.find?_range_eq_some]
  constructor
  · rintro ⟨h, -, hm⟩; exact ⟨h, fun m hlt => by simpa using hm m hlt⟩
  · rintro ⟨h, hm⟩
    exact ⟨h, List.mem_range.2 (lt_length_of_answersWait h), fun m hlt => by simpa using hm m hlt⟩

/-- There is no answer exactly when no sample answers the wait. -/
theorem edgeAnswer_eq_none {samples : List Bool} {wait : EdgeWait} {p : Nat} :
    edgeAnswer samples wait p = none ↔ ∀ n, answersWait samples wait p n = false := by
  unfold edgeAnswer
  rw [List.find?_eq_none]
  constructor
  · intro h n
    by_contra hn
    have hn' : answersWait samples wait p n = true := by simpa using hn
    exact h n (List.mem_range.2 (lt_length_of_answersWait hn')) hn'
  · intro h n _; simp [h n]

/-- With fuel left, the words are END alone when there is no answer, else the answer and what follows it. -/
theorem edgeWords_succ (samples : List Bool) (fuel : Nat) (wait : EdgeWait) (p : Nat) :
    (edgeAnswer samples wait p = none ∧ edgeWords samples (fuel + 1) wait p = [.endInput]) ∨
    ∃ n, edgeAnswer samples wait p = some n ∧
      edgeWords samples (fuel + 1) wait p = edgeWord wait n :: edgeWords samples fuel wait.next n := by
  rw [edgeWords]
  cases h : edgeAnswer samples wait p with
  | none => exact .inl ⟨rfl, rfl⟩
  | some n => exact .inr ⟨n, rfl, rfl⟩

end Sys2Proof.Machine
end

