-- ==== Sys2Proof/Laws/State.lean ====
section
/-! SUPPORT. One lemma per field for each named update of State, so that no proof unfolds one. -/

namespace Sys2Proof.Machine

section
variable (s : State) (cat : Category) (p q : Position) (d : Byte) (br : PosRat)

@[simp] theorem emit_currentBits : (s.emit cat p q d).currentBits = s.currentBits := rfl
@[simp] theorem emit_byteStartSample : (s.emit cat p q d).byteStartSample = s.byteStartSample := rfl
@[simp] theorem emit_breakCount : (s.emit cat p q d).breakCount = s.breakCount := rfl
@[simp] theorem emit_cursorSample : (s.emit cat p q d).cursorSample = s.cursorSample := rfl
@[simp] theorem emit_fallSample : (s.emit cat p q d).fallSample = s.fallSample := rfl
@[simp] theorem emit_phase : (s.emit cat p q d).phase = s.phase := rfl
@[simp] theorem emit_cfg : (s.emit cat p q d).cfg = s.cfg := rfl
@[simp] theorem emit_inputs : (s.emit cat p q d).inputs = s.inputs := rfl
@[simp] theorem emit_sym : (s.emit cat p q d).sym = s.sym := rfl
@[simp] theorem emit_ann : (s.emit cat p q d).ann = s.ann ++ [{ startPos := p, endPos := q, cat := cat, data := d }] := rfl

@[simp] theorem resetRegisters_currentBits : (resetRegisters s).currentBits = [] := rfl
@[simp] theorem resetRegisters_byteStartSample : (resetRegisters s).byteStartSample = 0 := rfl
@[simp] theorem resetRegisters_breakCount : (resetRegisters s).breakCount = .one := rfl
@[simp] theorem resetRegisters_cursorSample : (resetRegisters s).cursorSample = 0 := rfl
@[simp] theorem resetRegisters_fallSample : (resetRegisters s).fallSample = 0 := rfl
@[simp] theorem resetRegisters_phase : (resetRegisters s).phase = .idle := rfl
@[simp] theorem resetRegisters_cfg : (resetRegisters s).cfg = none := rfl
@[simp] theorem resetRegisters_inputs : (resetRegisters s).inputs = s.inputs := rfl
@[simp] theorem resetRegisters_sym : (resetRegisters s).sym = s.sym := rfl
@[simp] theorem resetRegisters_ann : (resetRegisters s).ann = s.ann := rfl

@[simp] theorem takeConfigurationError_currentBits :
    (takeConfigurationError s br).currentBits = s.currentBits := rfl
@[simp] theorem takeConfigurationError_byteStartSample :
    (takeConfigurationError s br).byteStartSample = s.byteStartSample := rfl
@[simp] theorem takeConfigurationError_breakCount :
    (takeConfigurationError s br).breakCount = s.breakCount := rfl
@[simp] theorem takeConfigurationError_cursorSample :
    (takeConfigurationError s br).cursorSample = s.cursorSample := rfl
@[simp] theorem takeConfigurationError_fallSample :
    (takeConfigurationError s br).fallSample = s.fallSample := rfl
@[simp] theorem takeConfigurationError_phase :
    (takeConfigurationError s br).phase = .configFault := rfl
@[simp] theorem takeConfigurationError_cfg :
    (takeConfigurationError s br).cfg = some { sampleRate := none, bitRate := br } := rfl
@[simp] theorem takeConfigurationError_inputs :
    (takeConfigurationError s br).inputs = s.inputs := rfl
@[simp] theorem takeConfigurationError_sym :
    (takeConfigurationError s br).sym = s.sym := rfl
@[simp] theorem takeConfigurationError_ann :
    (takeConfigurationError s br).ann = s.ann := rfl

end

end Sys2Proof.Machine
end

