-- ==== Sys2Proof/Laws/Ops.lean ====
section
/-! SUPPORT. What each shared operation can do, said once: the acceptance of a word, the fetch, the
assembler's procedures, and one step. -/

namespace Sys2Proof.Machine

/-! ## Constants -/

theorem kBreak_eq : kBreak = 6 / 5 := rfl
theorem kHalf_eq : kHalf = 1 / 2 := rfl
theorem kBitLen_eq : kBitLen = 1 := rfl
theorem kStopGap_eq : kStopGap = 3 / 10 := rfl
theorem kStopLen_eq : kStopLen = 13 / 10 := rfl
theorem kRecovery_eq : kRecovery = 9 / 20 := rfl
theorem kWaitEnd_eq : kWaitEnd = 2 := rfl
theorem byteBits_eq : byteBits = 8 := rfl

/-! ## The bit width -/

theorem unstatedBitWidth_pos (br : Option PosRat) : 0 < Config.unstatedBitWidth br := by
  unfold Config.unstatedBitWidth; positivity

/-- The bit width is positive in every state (R100). -/
theorem bitWidthOf_pos (cfg : Option Cfg) : 0 < bitWidthOf cfg := by
  match cfg with
  | none => exact unstatedBitWidth_pos _
  | some { sampleRate := none, bitRate := br } => exact unstatedBitWidth_pos _
  | some { sampleRate := some sr, bitRate := br } => exact div_pos sr.property br.property

theorem bitWidth_pos (s : State) : 0 < bitWidth s := bitWidthOf_pos s.cfg

/-- The bit width depends on `CFG` alone (R28). -/
theorem bitWidth_congr {s t : State} (h : s.cfg = t.cfg) : bitWidth s = bitWidth t := by
  unfold bitWidth; rw [h]

/-! ## Accepting a word -/

theorem acceptIn_of_mem {ps : List Phase} {s : State} (h : s.phase ∈ ps) (t : State) :
    acceptIn ps s t = .next t := if_pos h

theorem acceptIn_of_not_mem {ps : List Phase} {s : State} (h : s.phase ∉ ps) (t : State) :
    acceptIn ps s t = .refused .wrongPhase := if_neg h

/-- A word answers a next state exactly when its phase awaits it, and then the state it names. -/
theorem acceptIn_next {ps : List Phase} {s t u : State} :
    acceptIn ps s t = .next u ↔ s.phase ∈ ps ∧ u = t := by
  by_cases h : s.phase ∈ ps
  · rw [acceptIn_of_mem h]
    exact ⟨fun e => ⟨h, (Host.Outcome.next.inj e).symm⟩, fun e => by rw [e.2]⟩
  · rw [acceptIn_of_not_mem h]
    exact ⟨fun e => (nomatch e), fun e => absurd e.1 h⟩

theorem acceptIn_refused {ps : List Phase} {s t : State} {r : Refusal} :
    acceptIn ps s t = .refused r ↔ s.phase ∉ ps ∧ r = .wrongPhase := by
  by_cases h : s.phase ∈ ps
  · rw [acceptIn_of_mem h]
    exact ⟨fun e => (nomatch e), fun e => absurd h e.1⟩
  · rw [acceptIn_of_not_mem h]
    exact ⟨fun e => ⟨h, (Host.Outcome.refused.inj e).symm⟩, fun e => by rw [e.2]⟩

/-! ## The assembler -/

/-- `ByteComplete` (R124) as one record: three annotations, the byte cleared, the cursor advanced. -/
theorem byteComplete_eq (s : State) :
    byteComplete s =
      { s with
        currentBits := []
        byteStartSample := 0
        cursorSample := s.cursorSample + 3 / 10 * bitWidth s
        ann := s.ann ++
          [{ startPos := s.byteStartSample, endPos := s.cursorSample + bitWidth s, cat := .byte,
             data := packByte s.currentBits },
           { startPos := s.byteStartSample, endPos := s.cursorSample + bitWidth s, cat := .char,
             data := packByte s.currentBits },
           { startPos := s.cursorSample + 3 / 10 * bitWidth s,
             endPos := s.cursorSample + 3 / 10 * bitWidth s + 13 / 10 * bitWidth s, cat := .stop,
             data := 0#8 }] } := by
  simp only [byteComplete, State.emit, kStopGap_eq, kStopLen_eq, List.append_assoc, List.cons_append,
    List.nil_append]

/-- `AssembleBit(b)` when the byte is not completed (R121). -/
theorem assembleBit_short (b : Bool) {s : State} (h : s.currentBits.length ≠ 7) :
    assembleBit b s =
      { s with
        currentBits := s.currentBits ++ [b]
        ann := s.ann ++ [{ startPos := s.cursorSample, endPos := s.cursorSample + bitWidth s,
                           cat := .bit, data := bitData b }] } := by
  have h8 : ¬ (s.currentBits ++ [b]).length = byteBits := by simp [byteBits_eq, h]
  simp only [assembleBit, State.emit, if_neg h8, kBitLen_eq, one_mul]
  rfl

/-- `AssembleBit(b)` at the eighth bit (R121, R124). -/
theorem assembleBit_full (b : Bool) {s : State} (h : s.currentBits.length = 7) :
    assembleBit b s =
      { s with
        currentBits := []
        byteStartSample := 0
        cursorSample := s.cursorSample + 3 / 10 * bitWidth s
        ann := s.ann ++
          [{ startPos := s.cursorSample, endPos := s.cursorSample + bitWidth s, cat := .bit,
             data := bitData b },
           { startPos := s.byteStartSample, endPos := s.cursorSample + bitWidth s, cat := .byte,
             data := packByte (s.currentBits ++ [b]) },
           { startPos := s.byteStartSample, endPos := s.cursorSample + bitWidth s, cat := .char,
             data := packByte (s.currentBits ++ [b]) },
           { startPos := s.cursorSample + 3 / 10 * bitWidth s,
             endPos := s.cursorSample + 3 / 10 * bitWidth s + 13 / 10 * bitWidth s, cat := .stop,
             data := 0#8 }] } := by
  have h8 : (s.currentBits ++ [b]).length = byteBits := by simp [byteBits_eq, h]
  simp only [assembleBit, State.emit, if_pos h8, kBitLen_eq, one_mul, byteComplete_eq, List.append_assoc,
    List.cons_append, List.nil_append]
  rfl

/-- `AssembleBreak(now)` for the first break of a pair (R126). -/
theorem assembleBreak_one (now : SampleIndex) {s : State} (h : s.breakCount = .one) :
    assembleBreak now s =
      { s with
        currentBits := []
        byteStartSample := 0
        breakCount := .two
        cursorSample := now
        ann := s.ann ++
          [{ startPos := s.cursorSample, endPos := now, cat := .brk, data := 0#8 },
           { startPos := now, endPos := now + 9 / 20 * bitWidth s, cat := .breakRecovery,
             data := 0#8 }] } := by
  simp only [assembleBreak, State.emit, h, kRecovery_eq, List.append_assoc, List.cons_append,
    List.nil_append]

/-- `AssembleBreak(now)` for the second break of a pair (R126): the Wait is emitted. -/
theorem assembleBreak_two (now : SampleIndex) {s : State} (h : s.breakCount = .two) :
    assembleBreak now s =
      { s with
        currentBits := []
        byteStartSample := 0
        breakCount := .one
        cursorSample := now
        ann := s.ann ++
          [{ startPos := s.cursorSample, endPos := now, cat := .brk, data := 0#8 },
           { startPos := now, endPos := now + 9 / 20 * bitWidth s, cat := .breakRecovery, data := 0#8 },
           { startPos := now + 9 / 20 * bitWidth s, endPos := now + 2 * bitWidth s, cat := .wait,
             data := 0#8 }] } := by
  simp only [assembleBreak, State.emit, h, kRecovery_eq, kWaitEnd_eq, List.append_assoc,
    List.cons_append, List.nil_append]

/-- What the dispatch of a symbol leaves alone (R36). -/
theorem dispatchSymbol_frame (sym : Symbol) (now : SampleIndex) (s : State) :
    (dispatchSymbol sym now s).fallSample = s.fallSample ∧
    (dispatchSymbol sym now s).phase = s.phase ∧
    (dispatchSymbol sym now s).cfg = s.cfg ∧
    (dispatchSymbol sym now s).inputs = s.inputs ∧
    (dispatchSymbol sym now s).sym = s.sym := by
  cases sym with
  | bit b st dur =>
    by_cases h : s.currentBits.length = 7
    · simp [dispatchSymbol, assembleBit_full b h]
    · simp [dispatchSymbol, assembleBit_short b h]
  | brk st =>
    cases h : s.breakCount
    · simp [dispatchSymbol, assembleBreak_one now h]
    · simp [dispatchSymbol, assembleBreak_two now h]

/-! ## The fetch and the step -/

/-- A fetched word and the state it leaves: from the SYM interface, or else the first input word. -/
theorem fetch_eq_some {s s1 : State} {w : InWord} :
    fetch s = some (w, s1) ↔
      (∃ x, s.sym = some x ∧ w = .sym x ∧ s1 = { s with sym := none }) ∨
      (∃ x rest, s.sym = none ∧ s.inputs = x :: rest ∧ w = .ev x ∧ s1 = { s with inputs := rest }) := by
  unfold fetch
  cases hs : s.sym with
  | some x =>
    simp only [Option.some.injEq, Prod.mk.injEq, exists_eq_left', false_and, exists_false, or_false,
      reduceCtorEq]
    constructor <;> rintro ⟨rfl, rfl⟩ <;> exact ⟨rfl, rfl⟩
  | none =>
    cases hi : s.inputs with
    | nil => simp
    | cons x rest =>
      simp only [Option.some.injEq, Prod.mk.injEq, List.cons.injEq, reduceCtorEq, false_and,
        exists_false, false_or, true_and]
      constructor
      · rintro ⟨rfl, rfl⟩; exact ⟨x, rest, ⟨rfl, rfl⟩, rfl, rfl⟩
      · rintro ⟨_, _, ⟨rfl, rfl⟩, rfl, rfl⟩; exact ⟨rfl, rfl⟩

theorem fetch_eq_none {s : State} : fetch s = none ↔ s.sym = none ∧ s.inputs = [] := by
  unfold fetch
  cases hs : s.sym with
  | some x => simp
  | none => cases hi : s.inputs <;> simp

/-- All a step that answers a next state can do: idle, or run the decoded word on what the fetch leaves. -/
theorem step_cases {s t : State} (h : step s = .next t) :
    (fetch s = none ∧ t = s) ∨
    (∃ w s1 i, fetch s = some (w, s1) ∧ decode w = .ok i ∧ exec i s1 = .next t) := by
  unfold step at h
  cases hf : fetch s with
  | none => rw [hf] at h; exact .inl ⟨rfl, (Host.Outcome.next.inj h).symm⟩
  | some p =>
    obtain ⟨w, s1⟩ := p
    rw [hf] at h
    cases hd : decode w with
    | error e => simp only [hd] at h; exact nomatch h
    | ok i => simp only [hd] at h; exact .inr ⟨w, s1, i, rfl, hd, h⟩

/-- All an instruction can do when it answers a next state, with the phases it is accepted in. -/
theorem exec_cases {i : Instr} {s t : State} (h : exec i s = .next t) :
    (∃ n, i = .high n ∧ s.phase = .sync ∧ t = { s with phase := .waitFall }) ∨
    (∃ n, i = .fall n ∧ s.phase = .waitFall ∧
      t = { s with
            fallSample := n
            cursorSample := (n : ℚ)
            byteStartSample := if s.byteStartSample = 0 then n else s.byteStartSample
            phase := .waitRise }) ∨
    (∃ n, i = .rise n ∧ s.phase = .waitRise ∧
      t = dispatchSymbol (classify (bitWidth s) s.fallSample (pulseWidth s.fallSample n)) n
            { s with phase := .waitFall }) ∨
    (i = .endInput ∧ (s.phase = .sync ∨ s.phase = .waitFall ∨ s.phase = .waitRise) ∧
      t = { s with phase := .done }) ∨
    (∃ c sr, i = .start c ∧ c.sampleRate = some sr ∧ s.phase = .idle ∧
      t = { s with cfg := some { sampleRate := some sr, bitRate := c.bitRate }, phase := .sync }) ∨
    (∃ c, i = .start c ∧ c.sampleRate = none ∧ s.phase = .idle ∧
      t = takeConfigurationError s c.bitRate) ∨
    (i = .reset ∧ t = resetRegisters s) ∨
    (∃ st dur, i = .bit0 st dur ∧ t = assembleBit false s) ∨
    (∃ st dur, i = .bit1 st dur ∧ t = assembleBit true s) ∨
    (∃ st now, i = .brk st now ∧ t = assembleBreak now s) := by
  cases i with
  | high n =>
    obtain ⟨hp, rfl⟩ := acceptIn_next.1 h
    exact .inl ⟨n, rfl, by simpa using hp, rfl⟩
  | fall n =>
    obtain ⟨hp, rfl⟩ := acceptIn_next.1 h
    exact .inr (.inl ⟨n, rfl, by simpa using hp, rfl⟩)
  | rise n =>
    obtain ⟨hp, rfl⟩ := acceptIn_next.1 h
    exact .inr (.inr (.inl ⟨n, rfl, by simpa using hp, rfl⟩))
  | endInput =>
    obtain ⟨hp, rfl⟩ := acceptIn_next.1 h
    exact .inr (.inr (.inr (.inl ⟨rfl, by simpa using hp, rfl⟩)))
  | start c =>
    obtain ⟨hp, rfl⟩ := acceptIn_next.1 h
    have hp' : s.phase = .idle := by simpa using hp
    cases hc : c.sampleRate with
    | some sr => exact .inr (.inr (.inr (.inr (.inl ⟨c, sr, rfl, hc, hp', rfl⟩))))
    | none => exact .inr (.inr (.inr (.inr (.inr (.inl ⟨c, rfl, hc, hp', rfl⟩)))))
  | reset =>
    exact .inr (.inr (.inr (.inr (.inr (.inr (.inl ⟨rfl, (Host.Outcome.next.inj h).symm⟩))))))
  | bit0 st dur =>
    exact .inr (.inr (.inr (.inr (.inr (.inr (.inr (.inl
      ⟨st, dur, rfl, (Host.Outcome.next.inj h).symm⟩)))))))
  | bit1 st dur =>
    exact .inr (.inr (.inr (.inr (.inr (.inr (.inr (.inr (.inl
      ⟨st, dur, rfl, (Host.Outcome.next.inj h).symm⟩))))))))
  | brk st now =>
    exact .inr (.inr (.inr (.inr (.inr (.inr (.inr (.inr (.inr
      ⟨st, now, rfl, (Host.Outcome.next.inj h).symm⟩))))))))

end Sys2Proof.Machine
end

