-- ==== Sys2Proof/Laws/PerInstr.lean ====
section
/-! SUPPORT. Statements made per instruction. Family `TableRow`: the encoding of an instruction carries
the code that its row of spec/opcode_table.json gives it (R72, R75). -/

namespace Sys2Proof.Laws

/-- The code of the row (`match` over `mask`) that the encoded word must carry. -/
def TableRow.Statement (i : Instr) : Prop :=
  match i, encode i with
  | .high _,   .ev x  => x.op = 0b000#3
  | .fall _,   .ev x  => x.op = 0b001#3
  | .rise _,   .ev x  => x.op = 0b010#3
  | .endInput, .ev x  => x.op = 0b011#3
  | .start _,  .ev x  => x.op = 0b100#3
  | .reset,    .ev x  => x.op = 0b101#3
  | .bit0 _ _, .sym x => x.kind = 0b00#2
  | .bit1 _ _, .sym x => x.kind = 0b01#2
  | .brk _ _,  .sym x => x.kind = 0b10#2
  | _,         _      => False

theorem TableRow.high (t : SampleIndex) : TableRow.Statement (.high t) := rfl
theorem TableRow.fall (t : SampleIndex) : TableRow.Statement (.fall t) := rfl
theorem TableRow.rise (t : SampleIndex) : TableRow.Statement (.rise t) := rfl
theorem TableRow.endInput : TableRow.Statement .endInput := rfl
theorem TableRow.start (cfg : Cfg) : TableRow.Statement (.start cfg) := rfl
theorem TableRow.reset : TableRow.Statement .reset := rfl
theorem TableRow.bit0 (start : SampleIndex) (dur : Int) : TableRow.Statement (.bit0 start dur) := rfl
theorem TableRow.bit1 (start : SampleIndex) (dur : Int) : TableRow.Statement (.bit1 start dur) := rfl
theorem TableRow.brk (start now : SampleIndex) : TableRow.Statement (.brk start now) := rfl

end Sys2Proof.Laws
end

