-- ==== Sys2Proof/Laws/Ports.lean ====
section
/-! SUPPORT. When a position fits a field of the `ann` port, and when a record exists. -/

namespace Sys2Proof.Machine

theorem portFits_iff (sw : Nat) (q : Position) :
    portFits sw q = true ↔ 0 ≤ ⌊q⌋ ∧ ⌊q⌋ < 2 ^ sw := by
  unfold portFits
  rw [Bool.and_eq_true, decide_eq_true_iff, decide_eq_true_iff]
  rfl

/-- The record of an annotation whose positions fit (R76). -/
theorem annWord_of_fits {sw : Nat} {a : Annotation} (hs : portFits sw a.startPos = true)
    (he : portFits sw a.endPos = true) :
    annWord sw a = some (BitVec.ofInt sw ⌊a.startPos⌋ ++ BitVec.ofInt sw ⌊a.endPos⌋
      ++ a.cat.code ++ a.data) := by
  unfold annWord
  rw [if_pos (by rw [hs, he]; rfl)]
  rfl

theorem annWord_eq_none_iff (sw : Nat) (a : Annotation) :
    annWord sw a = none ↔ ¬ (portFits sw a.startPos = true ∧ portFits sw a.endPos = true) := by
  unfold annWord
  rw [← Bool.and_eq_true]
  by_cases h : (portFits sw a.startPos && portFits sw a.endPos) = true
  · rw [if_pos h]; simp [h]
  · rw [if_neg h]; simp [h]

end Sys2Proof.Machine
end

