-- ==== Sys2Proof/Laws/Run.lean ====
section
/-! SUPPORT. Running a trace word by word: what a step does with a delivered word, and the induction step
of every statement about a run. -/

namespace Sys2Proof.Machine

/-- The encoded word of an input operation decodes to it. -/
theorem decodeEv_of_encodeEv {i : Instr} {x : EvIn} (h : encodeEv i = some x) : decodeEv x = .ok i := by
  cases i <;> simp only [encodeEv, encode, Option.some.injEq, reduceCtorEq] at h <;> subst h <;> try rfl
  rename_i c
  obtain ⟨sr, br⟩ := c
  cases sr <;> rfl

/-- What a decoded EV word is, by its code (R72). -/
theorem decodeEv_cases (x : EvIn) :
    (x.op = 0#3 ∧ decodeEv x = .ok (.high x.t)) ∨ (x.op = 1#3 ∧ decodeEv x = .ok (.fall x.t)) ∨
    (x.op = 2#3 ∧ decodeEv x = .ok (.rise x.t)) ∨ (x.op = 3#3 ∧ decodeEv x = .ok .endInput) ∨
    (x.op = 4#3 ∧ decodeEv x = .ok (.start x.cfg.toCfg)) ∨ (x.op = 5#3 ∧ decodeEv x = .ok .reset) ∨
    (5 < x.op.toNat ∧ decodeEv x = .error .reservedOp) := by
  obtain ⟨op, t, c⟩ := x
  have hlt := op.isLt
  obtain ⟨⟨k, hk⟩⟩ := op
  simp only at *
  interval_cases k <;> simp [decodeEv]

/-- An EV word decodes to an operation of the `ev` port only. -/
theorem onEvPort_of_decodeEv {x : EvIn} {i : Instr} (h : decodeEv x = .ok i) : i.onEvPort = true := by
  rcases decodeEv_cases x with ⟨_, e⟩ | ⟨_, e⟩ | ⟨_, e⟩ | ⟨_, e⟩ | ⟨_, e⟩ | ⟨_, e⟩ | ⟨_, e⟩ <;>
    rw [e] at h <;> cases h <;> rfl

/-- No instruction touches the streams: the fetch alone consumes (R51). -/
theorem exec_streams {i : Instr} {s t : State} (h : exec i s = .next t) :
    t.inputs = s.inputs ∧ t.sym = s.sym := by
  rcases exec_cases h with ⟨_, _, _, rfl⟩ | ⟨_, _, _, rfl⟩ | ⟨n, _, _, rfl⟩ | ⟨_, _, rfl⟩ |
    ⟨_, _, _, _, _, rfl⟩ | ⟨_, _, _, _, rfl⟩ | ⟨_, rfl⟩ | ⟨_, _, _, rfl⟩ | ⟨_, _, _, rfl⟩ |
    ⟨_, now, _, rfl⟩
  · exact ⟨rfl, rfl⟩
  · exact ⟨rfl, rfl⟩
  · exact (dispatchSymbol_frame _ n { s with phase := .waitFall }).2.2.2
  · exact ⟨rfl, rfl⟩
  · exact ⟨rfl, rfl⟩
  · exact ⟨rfl, rfl⟩
  · exact ⟨rfl, rfl⟩
  · exact (dispatchSymbol_frame (.bit false 0 0) 0 s).2.2.2
  · exact (dispatchSymbol_frame (.bit true 0 0) 0 s).2.2.2
  · exact (dispatchSymbol_frame (.brk 0) now s).2.2.2

/-- A step on a delivered trace runs its first word on the state with the rest delivered. -/
theorem step_deliver {i : Instr} (hi : i.onEvPort = true) (tr : List Instr) (s : State) :
    step (deliver (i :: tr) s) = exec i (deliver tr s) := by
  obtain ⟨x, hx⟩ := Option.isSome_iff_exists.1 hi
  have hf : fetch (deliver (i :: tr) s) = some (.ev x, deliver tr s) := by
    simp only [fetch, deliver, List.filterMap_cons, hx]
  simp only [step, hf, decode, decodeEv_of_encodeEv hx]

theorem runSteps_of_next {s t : State} (n : Nat) (h : step s = .next t) :
    runSteps (n + 1) s = runSteps n t := by
  rw [runSteps, h]

theorem runSteps_of_refused {s : State} {r : Refusal} (n : Nat) (h : step s = .refused r) :
    runSteps (n + 1) s = .refused r := by
  rw [runSteps, h]

theorem coreRun_of_next (M : Host.Core) (n : Nat) {s t : M.State} (h : M.step s = .next t) :
    M.run (n + 1) s = M.run n t := by
  rw [Host.Core.run, h]

theorem coreRun_of_refused (M : Host.Core) (n : Nat) {s : M.State} {r : M.Refusal}
    (h : M.step s = .refused r) : M.run (n + 1) s = .refused r := by
  rw [Host.Core.run, h]

/-- The host's run of the core is `runSteps`. -/
theorem coreRun_eq_runSteps (n : Nat) (s : State) : Host.Core.run Sys2Proof.core n s = runSteps n s := by
  induction n generalizing s with
  | zero => rfl
  | succ n ih =>
    cases h : step s with
    | next t => exact (coreRun_of_next Sys2Proof.core n h).trans ((ih t).trans (runSteps_of_next n h).symm)
    | fault r => exact nomatch r
    | refused r => exact (coreRun_of_refused Sys2Proof.core n h).trans (runSteps_of_refused n h).symm

theorem deliver_of_streams {tr : List Instr} {t : State} (h : t.inputs = tr.filterMap encodeEv)
    (hs : t.sym = none) : deliver tr t = t := by
  unfold deliver; rw [← h, ← hs]

theorem runTrace_nil (s : State) : runTrace [] s = .next (deliver [] s) := rfl

/-- The first word of a trace runs, and the rest runs from where it leads. -/
theorem runTrace_cons {i : Instr} (hi : i.onEvPort = true) {tr : List Instr} {s t : State}
    (h : exec i (deliver tr s) = .next t) : runTrace (i :: tr) s = runTrace tr t := by
  have hs := exec_streams h
  unfold runTrace
  rw [List.length_cons, runSteps_of_next _ ((step_deliver hi tr s).trans h),
    deliver_of_streams (tr := tr) hs.1 hs.2]

/-- The first word of a trace is refused, and so is the trace. -/
theorem runTrace_cons_refused {i : Instr} (hi : i.onEvPort = true) {tr : List Instr} {s : State}
    {r : Refusal} (h : exec i (deliver tr s) = .refused r) : runTrace (i :: tr) s = .refused r := by
  unfold runTrace
  exact runSteps_of_refused _ ((step_deliver hi tr s).trans h)

@[simp] theorem deliver_phase (tr : List Instr) (s : State) : (deliver tr s).phase = s.phase := rfl
@[simp] theorem deliver_cfg (tr : List Instr) (s : State) : (deliver tr s).cfg = s.cfg := rfl
@[simp] theorem deliver_ann (tr : List Instr) (s : State) : (deliver tr s).ann = s.ann := rfl
@[simp] theorem deliver_currentBits (tr : List Instr) (s : State) :
    (deliver tr s).currentBits = s.currentBits := rfl
@[simp] theorem deliver_byteStartSample (tr : List Instr) (s : State) :
    (deliver tr s).byteStartSample = s.byteStartSample := rfl
@[simp] theorem deliver_breakCount (tr : List Instr) (s : State) :
    (deliver tr s).breakCount = s.breakCount := rfl
@[simp] theorem deliver_cursorSample (tr : List Instr) (s : State) :
    (deliver tr s).cursorSample = s.cursorSample := rfl
@[simp] theorem deliver_fallSample (tr : List Instr) (s : State) :
    (deliver tr s).fallSample = s.fallSample := rfl
@[simp] theorem deliver_inputs (tr : List Instr) (s : State) :
    (deliver tr s).inputs = tr.filterMap encodeEv := rfl
@[simp] theorem deliver_sym (tr : List Instr) (s : State) : (deliver tr s).sym = none := rfl

/-! ## One pulse -/

/-- A pulse that is no break is the bit it stands for. -/
theorem classify_of_not_break {w : ℚ} {f r : SampleIndex} (h : isBreakPulse w (f, r) = false) :
    classify w f (pulseWidth f r) = .bit (pulseBit w (f, r)) f (pulseWidth f r) := by
  have hb : ¬ breakThreshold w < (pulseWidth f r : ℚ) := of_decide_eq_false h
  rw [classify, if_neg hb]
  by_cases hh : halfBitWidth w < (pulseWidth f r : ℚ)
  · rw [if_pos hh, pulseBit, decide_eq_true hh]; rfl
  · rw [if_neg hh, pulseBit, decide_eq_false hh]; rfl

theorem classify_of_break {w : ℚ} {f r : SampleIndex} (h : isBreakPulse w (f, r) = true) :
    classify w f (pulseWidth f r) = .brk f := by
  rw [classify, if_pos (of_decide_eq_true h)]

/-- A FALL's effect on the registers, with the phase the RISE after it sets. -/
def afterFall (f : SampleIndex) (s : State) : State :=
  { s with
    fallSample := f
    cursorSample := (f : ℚ)
    byteStartSample := if s.byteStartSample = 0 then f else s.byteStartSample
    phase := .waitFall }

/-- A pulse from a state that waits for a falling edge runs as the symbol it classifies as, on a state
with the edge latched. -/
theorem runTrace_pulse {s : State} (hp : s.phase = .waitFall) (f r : SampleIndex) (tr : List Instr) :
    runTrace (.fall f :: .rise r :: tr) s =
      runTrace tr (dispatchSymbol (classify (bitWidth s) f (pulseWidth f r)) r
        (afterFall f (deliver tr s))) := by
  have h1 : exec (.fall f) (deliver (.rise r :: tr) s) =
      .next { afterFall f (deliver (.rise r :: tr) s) with phase := .waitRise } :=
    acceptIn_of_mem (by simp [hp]) _
  rw [runTrace_cons rfl h1]
  have h2 : exec (.rise r) (deliver tr { afterFall f (deliver (.rise r :: tr) s) with phase := .waitRise }) =
      .next (dispatchSymbol (classify (bitWidth s) f (pulseWidth f r)) r (afterFall f (deliver tr s))) := by
    simp only [exec, execRise]
    exact acceptIn_of_mem (List.mem_singleton.2 rfl) _
  exact runTrace_cons rfl h2

end Sys2Proof.Machine
end

