-- ==== Sys2Proof/Tests/Slice0.lean ====
section
/-! SUPPORT. Tests against spec/95_test_vectors.md (the vector is named in each comment) and one witness
for the hypotheses of every statement that has any. Expected values are the spec's. -/

namespace Sys2Proof.Tests

open Sys2Proof.Machine

-- Each kernel evaluation waits for the declarations before it; run side by side they take a thread each.
set_option Elab.async false

/-! ## Helpers -/

/-- A rate of `n + 1` per second. -/
def rate (n : Nat) : PosRat := ⟨(n : ℚ) + 1, by positivity⟩

/-- Configuration A: bit width 10. -/
def cfgA : Cfg := { sampleRate := some (rate 999999), bitRate := rate 99999 }

/-- Configuration B: bit width 40000/3937. -/
def cfgB : Cfg := { sampleRate := some (rate 999999), bitRate := rate 98424 }

/-- The registers in the order of the test vectors' tuples, in configuration A. -/
def regs (bits : List Bool) (start : Nat) (count : BreakCount) (cursor : ℚ) (fall : Nat) (phase : Phase) : State :=
  { State.reset with
    currentBits := bits, byteStartSample := start, breakCount := count, cursorSample := cursor
    fallSample := fall, phase := phase, cfg := some cfgA }

/-- An annotation in the order of the test vectors' tables. -/
def annot (cat : Category) (startPos endPos : ℚ) (data : Byte) : Annotation :=
  { startPos := startPos, endPos := endPos, cat := cat, data := data }

/-- The outcome is a next state that passes. -/
def onNext (o : Host.Outcome State Fault Refusal) (p : State → Bool) : Bool :=
  match o with
  | .next t => p t
  | .fault _ | .refused _ => false

/-- The outcome is this refusal. -/
def refusedWith (o : Host.Outcome State Fault Refusal) (r : Refusal) : Bool :=
  match o with
  | .refused q => q == r
  | .next _ | .fault _ => false

/-- The next state of an outcome that passes `onNext`. -/
theorem next_of_onNext {o : Host.Outcome State Fault Refusal} {p : State → Bool} (h : onNext o p = true) :
    ∃ t, o = .next t ∧ p t = true := by
  cases o with
  | next t => exact ⟨t, rfl, h⟩
  | fault r => exact nomatch r
  | refused r => exact nomatch h

/-- An EV word, with configuration A on the `cfg` port. -/
def ev (op : BitVec 3) (t : Nat) : EvIn := { op := op, t := t, cfg := cfgInOf cfgA }

/-! ## WellFormed refuses what 32-bit fields cannot carry (R71, R217) -/

theorem test_wellFormed_high : (Instr.high (2 ^ 32)).wellFormed 32 = false := by decide +kernel
theorem test_wellFormed_fall : (Instr.fall (2 ^ 32)).wellFormed 32 = false := by decide +kernel
theorem test_wellFormed_rise : (Instr.rise (2 ^ 32)).wellFormed 32 = false := by decide +kernel
theorem test_wellFormed_bit0 : (Instr.bit0 (2 ^ 32) 7).wellFormed 32 = false := by decide +kernel
theorem test_wellFormed_bit1 : (Instr.bit1 (2 ^ 32) 7).wellFormed 32 = false := by decide +kernel
theorem test_wellFormed_brk_start : (Instr.brk (2 ^ 32) 0).wellFormed 32 = false := by decide +kernel
theorem test_wellFormed_brk_now : (Instr.brk 0 (2 ^ 32)).wellFormed 32 = false := by decide +kernel
theorem test_wellFormed_largest : (Instr.fall 4294967295).wellFormed 32 = true := by decide +kernel

/-! ## Decoding: words written out from R71, R72, R75 and 95_test_vectors.md 2.7 -/

theorem test_decode_high : decodeTableWord 40 0b000_00000000000000000000001111010001 = some (.high 977) := by decide +kernel
theorem test_decode_fall : decodeTableWord 40 0b001_00000000000000000000000001100100 = some (.fall 100) := by decide +kernel
theorem test_decode_rise : decodeTableWord 40 0b010_00000000000000000000000001101011 = some (.rise 107) := by decide +kernel
theorem test_decode_end : decodeTableWord 40 0b011_11111111111111111111111111111111 = some .endInput := by decide +kernel
theorem test_decode_start : decodeTableWord 40 0b100_00000000000000000000000000000000 =
    some (.start { sampleRate := none, bitRate := Config.bitRateDefault }) := by decide +kernel
theorem test_decode_reset : decodeTableWord 40 0b101_00000000000000000000000000000001 = some .reset := by decide +kernel
theorem test_decode_bit0 : decodeTableWord 8 0b00 = some (.bit0 0 0) := by decide +kernel
theorem test_decode_bit1 : decodeTableWord 8 0b01 = some (.bit1 0 0) := by decide +kernel
theorem test_decode_break : decodeTableWord 8 0b10 = some (.brk 0 0) := by decide +kernel
/-- X12, and the reserved SYM kind. -/
theorem test_decode_reserved : decodeTableWord 40 0x600000000 = none ∧ decodeTableWord 40 0x700000000 = none ∧
    decodeTableWord 8 0b11 = none := by decide +kernel
/-- A START word of format EV with a CFGIN word beside it: the rates of the `cfg` port are latched (R74). -/
theorem test_decode_start_cfg :
    (cfgOfBits 8 0b1_00100011_00000011#(1 + 8 + 8)).map (fun c => decodeEv { op := 0b100#3, t := 0, cfg := c }) =
      some (.ok (.start { sampleRate := some (rate 34), bitRate := rate 2 })) := by decide +kernel

/-- An index of `2 ^ 32` or more has no EV word of 35 bits; the largest that fits is 2.7's `0x1_FFFFFFFF`. -/
theorem test_evToBits : evToBits 32 { op := 1#3, t := 4294967296, cfg := cfgPortIdle } = none ∧
    evToBits 32 { op := 1#3, t := 4294967295, cfg := cfgPortIdle } = some 0x1FFFFFFFF#(3 + 32) := by decide +kernel

/-! ## One step of each operation -/

/-- L4: HIGH stores nothing but the phase. -/
theorem test_high : onNext (exec (.high 977) (regs [] 0 .one 0 0 .sync))
    (· == regs [] 0 .one 0 0 .waitFall) = true := by decide +kernel
/-- X4. -/
theorem test_high_refused : refusedWith (exec (.high 10) (regs [] 0 .one 0 0 .waitFall)) .wrongPhase = true := by
  decide +kernel
/-- L6: the sentinel takes the edge. -/
theorem test_fall_first : onNext (exec (.fall 100) (regs [] 0 .one 0 0 .waitFall))
    (· == regs [] 100 .one 100 100 .waitRise) = true := by decide +kernel
/-- L7: `byte_start_sample` is kept. -/
theorem test_fall_kept : onNext (exec (.fall 120) (regs [false, true] 100 .one 110 110 .waitFall))
    (· == regs [false, true] 100 .one 120 120 .waitRise) = true := by decide +kernel
/-- A3: a RISE whose pulse is the eighth bit. -/
theorem test_rise_byte :
    onNext (exec (.rise 277) (regs [true, false, true, false, true, false, true] 200 .two 270 270 .waitRise))
      (· == { regs [] 0 .two 273 270 .waitFall with
              ann := [annot .bit 270 280 0, annot .byte 200 280 0xAA, annot .char 200 280 0xAA,
                      annot .stop 273 286 0] }) = true := by decide +kernel
/-- B2: a RISE whose pulse is the second break. -/
theorem test_rise_break :
    onNext (exec (.rise 613) (regs [] 600 .two 600 600 .waitRise))
      (· == { regs [] 0 .one 613 600 .waitFall with
              ann := [annot .brk 600 613 0, annot .breakRecovery 613 (1235 / 2) 0,
                      annot .wait (1235 / 2) 633 0] }) = true := by decide +kernel
/-- L10: END drops the pulse in progress. -/
theorem test_end : onNext (exec .endInput (regs [false, true] 100 .one 120 120 .waitRise))
    (· == regs [false, true] 100 .one 120 120 .done) = true := by decide +kernel
/-- X2. -/
theorem test_end_refused : refusedWith (exec .endInput State.reset) .wrongPhase = true := by decide +kernel
/-- L1. -/
theorem test_start : onNext (exec (.start cfgA) State.reset)
    (· == regs [] 0 .one 0 0 .sync) = true := by decide +kernel
/-- L2: ConfigurationError, and `FLT = 0b101`. -/
theorem test_start_fault : onNext (exec (.start { cfgB with sampleRate := none }) State.reset)
    (fun t => t.phase == .configFault && (fltOf t).toBits == 0b101#3 && t.ann == []) = true := by decide +kernel
/-- L12. -/
theorem test_reset : onNext (exec .reset (regs [true] 5 .two 7 8 .waitRise)) (· == State.reset) = true := by
  decide +kernel
/-- A1's symbol step: the first bit of a byte, a 0. -/
theorem test_bit0 : onNext (exec (.bit0 100 7) (regs [] 100 .one 100 100 .waitFall))
    (· == { regs [false] 100 .one 100 100 .waitFall with ann := [annot .bit 100 110 0] }) = true := by decide +kernel
/-- A4's symbol step: the eighth bit with a fractional bit width. -/
theorem test_bit1_fractional :
    onNext (exec (.bit1 1071 2)
        { regs [true, true, true, true, true, true, true] 1000 .one 1071 1071 .waitFall with cfg := some cfgB })
      (fun t => t.cursorSample == 4228527 / 3937 &&
        t.ann == [annot .bit 1071 (4256527 / 3937) 1, annot .byte 1000 (4256527 / 3937) 0xFF,
                  annot .char 1000 (4256527 / 3937) 0xFF,
                  annot .stop (4228527 / 3937) (4280527 / 3937) 0]) = true := by decide +kernel
/-- B1's symbol step: the first break, with three bits held. -/
theorem test_break : onNext (exec (.brk 530 560) (regs [true, true, false] 500 .one 530 530 .waitFall))
    (· == { regs [] 0 .two 560 530 .waitFall with
            ann := [annot .brk 530 560 0, annot .breakRecovery 560 (1129 / 2) 0] }) = true := by decide +kernel
/-- B3's symbol step: the second break with a fractional bit width. -/
theorem test_break_wait : onNext (exec (.brk 1000 1013) { regs [false] 900 .two 1000 1000 .waitFall with cfg := some cfgB })
    (fun t => t.ann == [annot .brk 1000 1013 0, annot .breakRecovery 1013 (4006181 / 3937) 0,
                        annot .wait (4006181 / 3937) (4068181 / 3937) 0]) = true := by decide +kernel

/-! ## The step, the classifier, packing, the ports, the front end -/

/-- A BREAK row placed on the SYM interface right after reset runs. -/
theorem test_withFetchWord_sym : onNext (step (State.reset.withFetchWord 8 0b10))
    (fun t => t.breakCount == .two && t.sym == none) = true := by decide +kernel
/-- A RESET row placed at the head of the input words runs and is consumed. -/
theorem test_withFetchWord_ev : onNext (step (State.reset.withFetchWord 40 0x500000000)) (· == State.reset) = true := by
  decide +kernel
/-- T7, T2, T3, T4, T5. -/
theorem test_classify : ([0, 5, 6, 12, 13] : List Int).map (classify 10 1) =
    [.bit true 1 0, .bit true 1 5, .bit false 1 6, .bit false 1 12, .brk 1] := by decide +kernel
/-- T17, T18: the exact threshold 14. -/
theorem test_classify_exact : ([14, 15] : List Int).map (classify (35 / 3) 1) = [.bit false 1 14, .brk 1] := by
  decide +kernel
/-- 2.2: 0x45. -/
theorem test_pack : packByte [false, true, false, false, false, true, false, true] = 0x45#8 := by decide +kernel
/-- 2.7: the Stop row, with the floored positions of P1. -/
theorem test_annWord : annWord 32 (annot .stop (681290 / 3937) (733290 / 3937) 0) =
    some 0x000000568000005D600#(32 + 32 + 3 + 8) := by decide +kernel
/-- P6. -/
def lineP6 : List Bool :=
  [false, false, true, true, false, false, false, false, false, false, false, true, true, true, false, false,
   true, true, true, true, false, false, false, false, false]
theorem test_edgeSource : edgeSource lineP6 =
    [.high 2, .fall 4, .rise 11, .fall 14, .rise 16, .fall 20, .endInput] := by decide +kernel

/-! ## Witnesses: concrete terms that meet the hypotheses of each statement, clause by clause -/

theorem witness_DecodeOfEncodeIsTheInstruction :
    (Instr.fall 4294967295).wellFormed 32 = true ∧
    encodeEv (.fall 4294967295) = some { op := 1#3, t := 4294967295, cfg := cfgPortIdle } ∧
    (Instr.start cfgA).wellFormed 32 = true ∧ (encodeEv (.start cfgA)).isSome = true ∧
    (Instr.fall 4294967296).wellFormed 32 = false ∧
    encodeEv (.fall 4294967296) = some { op := 1#3, t := 4294967296, cfg := cfgPortIdle } := by decide +kernel

/-- The seven clauses, each at the least and the greatest `t`. -/
theorem witness_EvWordDecodesByOpAndT :
    ∀ k : Fin 8, (BitVec.ofNat (3 + 32) (k * 2 ^ 32)).toNat / 2 ^ 32 = k ∧
      (BitVec.ofNat (3 + 32) (k * 2 ^ 32 + (2 ^ 32 - 1))).toNat / 2 ^ 32 = k := by decide +kernel

/-- Both cases of "none", the first word without a sample rate, and one with. -/
theorem witness_CfgWordCarriesPositiveRates :
    cfgOfBits 8 0b1_00100011_00000000#(1 + 8 + 8) = none ∧
    cfgOfBits 8 0b1_00000000_00000011#(1 + 8 + 8) = none ∧
    (cfgOfBits 8 0b0_00000000_00000001#(1 + 8 + 8)).isSome = true ∧
    (cfgOfBits 8 0b1_11111111_11111111#(1 + 8 + 8)).isSome = true := by decide +kernel

/-- The last end that fits 4 bits, the first that does not, and a start below 0. -/
theorem witness_AnnWordHoldsFlooredFields :
    (annWord 4 (annot .bit 0 (31 / 2) 0)).isSome = true ∧ annWord 4 (annot .bit 0 16 0) = none ∧
    annWord 4 (annot .bit (-1 / 2) 3 0) = none := by decide +kernel

theorem witness_StepRunsTheDecodedWord :
    decode (.sym { kind := 2#2, start := 5, dur := 30, now := 35 }) = .ok (.brk 5 35) ∧
    (State.reset.withFetchWord 8 0b10).sym = some { kind := 2#2, start := 0, dur := 0, now := 0 } ∧
    (State.reset.withFetchWord 40 0x200000007).sym = none ∧
    (State.reset.withFetchWord 40 0x200000007).inputs = [{ op := 2#3, t := 7, cfg := cfgPortIdle }] ∧
    decode (.ev { op := 2#3, t := 7, cfg := cfgPortIdle }) = .ok (.rise 7) ∧
    (State.reset.withFetchWord 40 0x600000000).inputs = [{ op := 6#3, t := 0, cfg := cfgPortIdle }] ∧
    (State.reset.withFetchWord 8 0b11).sym = some { kind := 3#2, start := 0, dur := 0, now := 0 } ∧
    State.reset.inputs = [] := by decide +kernel

theorem witness_InputsAreConsumedInOrder : (deliver [.high 3] (regs [] 0 .one 0 0 .sync)).sym = none ∧
    ∃ t, step (deliver [.high 3] (regs [] 0 .one 0 0 .sync)) = .next t ∧ t.phase = .waitFall :=
  ⟨rfl, _, rfl, rfl⟩

/-- A step that emits four annotations. -/
theorem witness_OutputGrowsAtItsEnd :
    ∃ t, step (deliver [.rise 277] (regs [true, false, true, false, true, false, true] 200 .two 270 270 .waitRise)) =
      .next t ∧ decide (t.ann.length = 4) = true :=
  next_of_onNext (p := fun t => decide (t.ann.length = 4)) (by decide +kernel)

/-- Each antecedent: a RISE that completes a byte, a RISE that is a break, a FALL, a START. -/
theorem witness_OnlyListedOperationsWriteARegister :
    onNext (exec (.rise 277) (regs [true, false, true, false, true, false, true] 200 .two 270 270 .waitRise))
      (fun t => t.currentBits == [] && t.byteStartSample == 0 && t.cursorSample == 273 && t.phase == .waitFall &&
        t.ann.length == 4) = true ∧
    onNext (exec (.rise 613) (regs [] 600 .two 600 600 .waitRise)) (fun t => t.breakCount == .one) = true ∧
    onNext (exec (.fall 100) (regs [] 0 .one 0 0 .waitFall)) (fun t => t.fallSample == 100) = true ∧
    onNext (exec (.start cfgA) State.reset) (fun t => t.cfg == some cfgA) = true := by decide +kernel

theorem witness_ConfigurationIsReadAtStartOnly :
    (deliver [.high 3] (regs [] 0 .one 0 0 .sync)).inputs = [{ op := 0#3, t := 3, cfg := cfgPortIdle }] ∧
    (0#3 ≠ 4#3 ∧ 0#3 ≠ 5#3) ∧
    ∃ t, step (deliver [.high 3] (regs [] 0 .one 0 0 .sync)) = .next t :=
  ⟨rfl, by decide, _, rfl⟩

theorem witness_PowerOnRunsOnlyReset :
    (ev 5#3 0).op = 5#3 ∧ (ev 4#3 0).op.toNat < 5 ∧ 5 < (ev 6#3 0).op.toNat := by decide

/-- A run that goes through and a run that is refused, both from a state that is in no low pulse. -/
theorem witness_CursorAndLatchAreUnobservableOutsideAPulse :
    (regs [true] 5 .two 7 8 .waitFall).phase ≠ .waitRise ∧
    onNext (runTrace [.fall 20, .rise 40, .endInput] (regs [true] 5 .two 7 8 .waitFall))
      (fun t => t.ann.length == 3) = true ∧
    refusedWith (runTrace [.fall 20, .fall 40] (regs [true] 5 .two 7 8 .waitFall)) .wrongPhase = true := by
  decide +kernel

theorem witness_StartLatchesTheConfiguration :
    State.reset.phase = .idle ∧ cfgA.sampleRate = some (rate 999999) ∧
    ({ cfgA with sampleRate := none } : Cfg).sampleRate = none ∧
    (regs [] 0 .one 0 0 .sync).phase ≠ .idle ∧
    (cfgInOf cfgA).toCfg = cfgA := by decide +kernel

/-- The premises of ConfigurationErrorEntry at the reset state, whose entry P4 gives. -/
theorem witness_ConfigurationErrorEntry :
    State.reset.phase = .idle ∧ ({ cfgB with sampleRate := none } : Cfg).sampleRate = none := by decide +kernel

theorem witness_OnlyResetLeavesFaultAndDone :
    (regs [] 0 .one 0 0 .done).phase = .done ∧ (regs [] 0 .one 0 0 .configFault).phase = .configFault ∧
    Instr.reset.onEvPort = true ∧ (Instr.start cfgA).onEvPort = true ∧ Instr.start cfgA ≠ .reset := by
  decide +kernel

/-- Both values of `fault`, and a state of each phase. -/
theorem witness_FaultAndStatusPortsFollowPhase :
    ([.idle, .sync, .waitFall, .waitRise, .done, .configFault] : List Phase).all
      (fun p => (regs [] 0 .one 0 0 p).phase == p) = true ∧
    (fltOf (regs [] 0 .one 0 0 .configFault)).fault = true ∧ (fltOf (regs [] 0 .one 0 0 .done)).fault = false := by
  decide +kernel

theorem witness_NoSampleRateMeansNoOutput :
    ({ cfgA with sampleRate := none } : Cfg).sampleRate = none ∧
    (Instr.high 0).onEvPort = true ∧ Instr.high 0 ≠ .reset := by decide +kernel

/-- The eight accepting entries of R157 (RESET's at `Idle`), and a refusing one for each phase. -/
theorem witness_PhaseTableDecides :
    ([(.idle, .reset), (.idle, .start cfgA), (.sync, .high 0), (.waitFall, .fall 1), (.waitRise, .rise 2),
      (.sync, .endInput), (.waitFall, .endInput), (.waitRise, .endInput)] : List (Phase × Instr)).all
      (fun p => p.2.onEvPort && (phaseTable p.1 p.2).isSome) = true ∧
    ([(.idle, .high 0), (.sync, .fall 10), (.waitFall, .rise 10), (.waitRise, .fall 10), (.done, .start cfgA),
      (.configFault, .high 0)] : List (Phase × Instr)).all
      (fun p => p.2.onEvPort && (phaseTable p.1 p.2).isNone) = true := by decide +kernel

theorem witness_HighEndsSynchronization :
    (regs [] 0 .one 0 0 .sync).phase = .sync ∧ State.reset.phase ≠ .sync := by decide +kernel

theorem witness_FallLatchesTheEdge :
    ((regs [] 0 .one 0 0 .waitFall).phase = .waitFall ∧ (regs [] 0 .one 0 0 .waitFall).byteStartSample = 0) ∧
    ((regs [false, true] 100 .one 110 110 .waitFall).phase = .waitFall ∧
      (regs [false, true] 100 .one 110 110 .waitFall).byteStartSample ≠ 0) ∧
    State.reset.phase ≠ .waitFall := by decide +kernel

/-- The three classes at their boundary widths 13, 12, 6 and 5 (T2 to T5), and the other phases. -/
theorem witness_RiseClassifiesAndDispatches :
    (regs [] 100 .one 100 100 .waitRise).phase = .waitRise ∧
    bitWidth (regs [] 100 .one 100 100 .waitRise) = 10 ∧
    ((10 : ℚ) * (6 / 5) < ((113 : Int) - (100 : Int) : Int) ∧
      (10 : ℚ) / 2 < ((112 : Int) - (100 : Int) : Int) ∧ (((112 : Int) - (100 : Int) : Int) : ℚ) ≤ 10 * (6 / 5) ∧
      (10 : ℚ) / 2 < ((106 : Int) - (100 : Int) : Int) ∧ (((105 : Int) - (100 : Int) : Int) : ℚ) ≤ 10 / 2) ∧
    State.reset.phase ≠ .waitRise := by decide +kernel

theorem witness_EndStopsTheLoop :
    (regs [] 0 .one 0 0 .sync).phase = .sync ∧ (regs [] 0 .one 0 0 .waitFall).phase = .waitFall ∧
    (regs [] 0 .one 0 0 .waitRise).phase = .waitRise ∧ State.reset.phase = .idle ∧
    (regs [] 0 .one 0 0 .done).phase = .done ∧ (regs [] 0 .one 0 0 .configFault).phase = .configFault := by
  decide +kernel

theorem witness_DerivedConfigurationValues :
    (regs [] 0 .one 0 0 .sync).cfg = some { sampleRate := some (rate 999999), bitRate := rate 99999 } := rfl

/-- A positive width, and pulse widths on both sides of and at both boundaries. -/
theorem witness_ClassifyByStrictThresholds :
    (0 : ℚ) < 10 ∧ ((12 : Int) : ℚ) = 10 * (6 / 5) ∧ ((5 : Int) : ℚ) = 10 / 2 ∧
    (10 : ℚ) * (6 / 5) < ((13 : Int) : ℚ) ∧ (10 : ℚ) / 2 < ((6 : Int) : ℚ) := by decide +kernel

/-- Widths 0 and -3 (T7, T8), and the lowest sample rate of a Bit(1) (T21). -/
theorem witness_NoPulseIsUnclassifiable :
    ((0 : Int) ≤ 0 ∧ (-3 : Int) ≤ 0) ∧
    2 ≤ bitWidthOf (some { sampleRate := some (rate 199999), bitRate := rate 99999 }) := by decide +kernel

/-- T21 on the one side; on the other `2 * bit_rate ≤ sample_rate` holds there, and fails at T19. -/
theorem witness_BitOneNeedsTwoSamplesPerBit :
    ((1 : Int) ≤ 1 ∧ classify (bitWidthOf (some { sampleRate := some (rate 199999), bitRate := rate 99999 })) 7 1 =
      .bit true 7 1) ∧
    2 * (rate 99999).val ≤ (rate 199999).val ∧ ¬ 2 * (rate 99999).val ≤ (rate 99999).val := by decide +kernel

theorem witness_PackIsMostSignificantFirst :
    [false, true, false, false, false, true, false, true].length = 8 := rfl

/-- A5's length 6, the greatest below the eighth bit, and the empty byte. -/
theorem witness_BitBelowEightIsAppended :
    (regs [false, false, false, false, false, false] 10 .one 70 70 .waitRise).currentBits.length ≠ 7 ∧
    State.reset.currentBits.length ≠ 7 := by decide +kernel

theorem witness_EighthBitCompletesTheByte :
    (regs [true, false, true, false, true, false, true] 200 .two 270 270 .waitRise).currentBits.length = 7 := rfl

theorem witness_BreakAbortsTheByteAndPairs :
    (regs [true, true, false] 500 .one 530 530 .waitRise).breakCount = .one ∧
    (regs [] 600 .two 600 600 .waitRise).breakCount = .two := by decide +kernel

/-- A next state for every operation of the statement's cases. -/
theorem witness_AnnotationsPerOperation :
    ([(.bit0 0 0, .idle), (.bit1 0 0, .idle), (.brk 0 0, .idle), (.rise 113, .waitRise), (.rise 105, .waitRise),
      (.high 0, .sync), (.fall 1, .waitFall), (.endInput, .sync), (.start cfgA, .idle), (.reset, .done)] :
      List (Instr × Phase)).all
      (fun p => onNext (exec p.1 (regs [] 100 .one 100 100 p.2)) (fun _ => true)) = true := by decide +kernel

/-- A step whose outcome is ConfigurationError. -/
theorem witness_AssemblerNeverFails :
    ∃ t, specOutcome State.reset (exec (.start { cfgA with sampleRate := none }) State.reset) =
      .configurationError t := ⟨_, rfl⟩

/-- A bit, the eighth bit, and a break for either value of `break_count`; widths at the boundaries. -/
theorem witness_PulseAnnotationGeometry :
    ((regs [] 0 .one 0 0 .waitFall).phase = .waitFall ∧ isBreakPulse 10 (100, 112) = false ∧
      (regs [] 0 .one 0 0 .waitFall).currentBits.length ≠ 7) ∧
    ((regs [true, false, true, false, true, false, true] 200 .two 260 260 .waitFall).phase = .waitFall ∧
      isBreakPulse 10 (270, 275) = false ∧
      (regs [true, false, true, false, true, false, true] 200 .two 260 260 .waitFall).currentBits.length = 7) ∧
    (isBreakPulse 10 (600, 613) = true ∧ (regs [] 0 .two 0 0 .waitFall).breakCount = .two) ∧
    bitWidth (regs [] 0 .one 0 0 .waitFall) = 10 := by decide +kernel

/-- A state inside a low pulse, with three bits held and the rising edge still to come, meets `RunInv`. -/
theorem runInv_inPulse : RunInv (deliver [.rise 560] (regs [true, true, false] 500 .one 530 530 .waitRise)) where
  symEmpty     := rfl
  bitsAtMost7  := by decide +kernel
  cursorNonneg := by decide +kernel
  cursorAtFall := fun _ => by decide +kernel
  resetValues  := fun h => by rcases h with h | h | h <;> cases h
  cfgEmpty     := fun h => by cases h
  cfgHasRate   := fun _ => ⟨_, _, rfl⟩
  cfgAbsent    := fun h => by cases h

theorem witness_StepKeepsInvariant :
    RunInv (deliver [.rise 560] (regs [true, true, false] 500 .one 530 530 .waitRise)) ∧
    ∃ t, step (deliver [.rise 560] (regs [true, true, false] 500 .one 530 530 .waitRise)) = .next t ∧
      decide (t.breakCount = .two) = true :=
  ⟨runInv_inPulse, next_of_onNext (p := fun t => decide (t.breakCount = .two)) (by decide +kernel)⟩

theorem witness_StepKeepsContractInvariant :
    ContractInv (deliver [.rise 560] (regs [true, true, false] 500 .one 530 530 .waitRise)) ∧
    ∃ t, step (deliver [.rise 560] (regs [true, true, false] 500 .one 530 530 .waitRise)) = .next t ∧
      decide (t.breakCount = .two) = true :=
  ⟨{ base := runInv_inPulse
     contract := fun x hx h => by
       obtain rfl : x = { op := 2#3, t := 560, cfg := cfgPortIdle } := by simpa [deliver, encodeEv, encode] using hx
       exact absurd h (by decide)
     startIffBits := fun h => by rcases h with h | h | h <;> cases h
     startInPulse := fun _ => by decide +kernel },
   witness_StepKeepsInvariant.2⟩

theorem witness_DecodingUsesTheConfiguredBitWidth :
    RunInv (deliver [.rise 560] (regs [true, true, false] 500 .one 530 530 .waitRise)) ∧
    (deliver [.rise 560] (regs [true, true, false] 500 .one 530 530 .waitRise)).inputs =
      [{ op := 2#3, t := 560, cfg := cfgPortIdle }] ∧
    decodeEv { op := 2#3, t := 560, cfg := cfgPortIdle } = .ok (.rise 560) ∧
    ∃ t, step (deliver [.rise 560] (regs [true, true, false] 500 .one 530 530 .waitRise)) = .next t :=
  ⟨runInv_inPulse, rfl, rfl, _, rfl⟩

/-- P2 cut after two breaks, and P4 with its recovery. -/
theorem witness_WellFormedTraceRuns :
    traceWellFormed [.reset, .start cfgA, .high 5, .fall 50, .rise 70, .fall 100, .rise 113, .endInput] = true ∧
    traceWellFormed [.reset, .start { cfgB with sampleRate := none }, .reset, .start cfgB, .high 0, .endInput] = true := by
  decide +kernel

/-- A run of P2's first break that goes through, and a run that is refused. -/
theorem witness_ReplayAfterResetIsIdentical :
    onNext (runTrace [.reset, .start cfgA, .high 5, .fall 50, .rise 70] (regs [true] 5 .two 7 8 .waitRise))
      (fun t => t.ann == [annot .brk 50 70 0, annot .breakRecovery 70 (149 / 2) 0]) = true ∧
    refusedWith (runTrace [.reset, .high 5] State.reset) .wrongPhase = true := by decide +kernel

/-- P3's eight pulses, whose widths are the boundary values 12 and 5. -/
theorem witness_EightPulsesMakeOneByte :
    let s := regs [] 0 .two 80 60 .waitFall
    let ps := [(100, 112), (114, 119), (128, 140), (142, 154), (156, 161), (170, 182), (184, 196), (198, 210)]
    s.phase = .waitFall ∧ s.currentBits = [] ∧ s.byteStartSample = 0 ∧ ps.length = 8 ∧
      ∀ p ∈ ps, 1 ≤ p.1 ∧ isBreakPulse (bitWidth s) p = false := by decide +kernel

/-- With 8-bit indices: a word and annotations that fit (the Bit's end is 255), a word that does not, and
an annotation that does not (its end is 256). -/
theorem witness_BoundedStepAgreesOrRefuses :
    (deliver [.rise 250] (regs [] 245 .one 245 245 .waitRise)).sym = none ∧
    (deliver [.rise 250] (regs [] 245 .one 245 245 .waitRise)).inputs = [{ op := 2#3, t := 250, cfg := cfgPortIdle }] ∧
    onNext (step (deliver [.rise 250] (regs [] 245 .one 245 245 .waitRise)))
      (fun t => t.ann.all fun a => decide (a.endPos < 2 ^ 8)) = true ∧
    onNext (step (deliver [.fall 256] (regs [] 0 .one 0 0 .waitFall))) (fun _ => decide (¬ 256 < 2 ^ 8)) = true ∧
    onNext (step (deliver [.rise 251] (regs [] 246 .one 246 246 .waitRise)))
      (fun t => t.ann.any fun a => decide (¬ a.endPos < 2 ^ 8)) = true := by decide +kernel

theorem witness_ReferenceEdgeSourceMeetsContract : cfgA.sampleRate.isSome = true := rfl

/-- The first pulse of P6. -/
theorem witness_ReferencePulseIsARunOfLowSamples :
    edgeSource lineP6 = [.high 2] ++ .fall 4 :: .rise 11 :: [.fall 14, .rise 16, .fall 20, .endInput] := by
  decide +kernel

/-- Consecutive words of P6 for each of the five continuations, and a line that is never high. -/
theorem witness_ReferenceAnswersAreLeast :
    edgeSource lineP6 = [] ++ .high 2 :: .fall 4 :: [.rise 11, .fall 14, .rise 16, .fall 20, .endInput] ∧
    edgeSource lineP6 = [.high 2] ++ .fall 4 :: .rise 11 :: [.fall 14, .rise 16, .fall 20, .endInput] ∧
    edgeSource lineP6 = [.high 2, .fall 4] ++ .rise 11 :: .fall 14 :: [.rise 16, .fall 20, .endInput] ∧
    edgeSource lineP6 = [.high 2, .fall 4, .rise 11, .fall 14, .rise 16] ++ .fall 20 :: .endInput :: [] ∧
    edgeSource [true, false, true] = [.high 0, .fall 1] ++ .rise 2 :: .endInput :: [] ∧
    edgeSource [false, false] = [.endInput] := by decide +kernel

end Sys2Proof.Tests
end

section
/-! Proofs of the statements about the registers (10_state.md): the derived configuration values (R28), which
operation writes which register (R36), and the invariants between steps (R30). -/

namespace Sys2Proof.Machine

/-! ## Which operations arrive on the `ev` port (R72) -/

@[simp] theorem onEvPort_high (n : SampleIndex) : (Instr.high n).onEvPort = true := rfl
@[simp] theorem onEvPort_fall (n : SampleIndex) : (Instr.fall n).onEvPort = true := rfl
@[simp] theorem onEvPort_rise (n : SampleIndex) : (Instr.rise n).onEvPort = true := rfl
@[simp] theorem onEvPort_endInput : Instr.endInput.onEvPort = true := rfl
@[simp] theorem onEvPort_start (c : Cfg) : (Instr.start c).onEvPort = true := rfl
@[simp] theorem onEvPort_reset : Instr.reset.onEvPort = true := rfl
@[simp] theorem onEvPort_bit0 (st : SampleIndex) (d : Int) : (Instr.bit0 st d).onEvPort = false := rfl
@[simp] theorem onEvPort_bit1 (st : SampleIndex) (d : Int) : (Instr.bit1 st d).onEvPort = false := rfl
@[simp] theorem onEvPort_brk (st now : SampleIndex) : (Instr.brk st now).onEvPort = false := rfl

/-! ## What a symbol leaves alone, and what it does to the byte in progress -/

section
variable (sym : Symbol) (now : SampleIndex) (b : Bool) (s : State)

@[simp] theorem dispatchSymbol_bit (st : SampleIndex) (d : Int) :
    dispatchSymbol (.bit b st d) now s = assembleBit b s := rfl
@[simp] theorem dispatchSymbol_brk (st : SampleIndex) :
    dispatchSymbol (.brk st) now s = assembleBreak now s := rfl

@[simp] theorem dispatchSymbol_fallSample : (dispatchSymbol sym now s).fallSample = s.fallSample :=
  (dispatchSymbol_frame sym now s).1
@[simp] theorem dispatchSymbol_phase : (dispatchSymbol sym now s).phase = s.phase :=
  (dispatchSymbol_frame sym now s).2.1
@[simp] theorem dispatchSymbol_cfg : (dispatchSymbol sym now s).cfg = s.cfg :=
  (dispatchSymbol_frame sym now s).2.2.1
@[simp] theorem dispatchSymbol_inputs : (dispatchSymbol sym now s).inputs = s.inputs :=
  (dispatchSymbol_frame sym now s).2.2.2.1
@[simp] theorem dispatchSymbol_sym : (dispatchSymbol sym now s).sym = s.sym :=
  (dispatchSymbol_frame sym now s).2.2.2.2

@[simp] theorem assembleBit_fallSample : (assembleBit b s).fallSample = s.fallSample :=
  dispatchSymbol_fallSample (.bit b 0 0) 0 s
@[simp] theorem assembleBit_phase : (assembleBit b s).phase = s.phase := dispatchSymbol_phase (.bit b 0 0) 0 s
@[simp] theorem assembleBit_cfg : (assembleBit b s).cfg = s.cfg := dispatchSymbol_cfg (.bit b 0 0) 0 s
@[simp] theorem assembleBit_inputs : (assembleBit b s).inputs = s.inputs := dispatchSymbol_inputs (.bit b 0 0) 0 s
@[simp] theorem assembleBit_sym : (assembleBit b s).sym = s.sym := dispatchSymbol_sym (.bit b 0 0) 0 s

@[simp] theorem assembleBreak_fallSample : (assembleBreak now s).fallSample = s.fallSample :=
  dispatchSymbol_fallSample (.brk 0) now s
@[simp] theorem assembleBreak_phase : (assembleBreak now s).phase = s.phase := dispatchSymbol_phase (.brk 0) now s
@[simp] theorem assembleBreak_cfg : (assembleBreak now s).cfg = s.cfg := dispatchSymbol_cfg (.brk 0) now s
@[simp] theorem assembleBreak_inputs : (assembleBreak now s).inputs = s.inputs :=
  dispatchSymbol_inputs (.brk 0) now s
@[simp] theorem assembleBreak_sym : (assembleBreak now s).sym = s.sym := dispatchSymbol_sym (.brk 0) now s

/-- A bit leaves the break count alone, also when it completes a byte (R121, R124). -/
@[simp] theorem assembleBit_breakCount : (assembleBit b s).breakCount = s.breakCount := by
  by_cases h : s.currentBits.length = 7
  · rw [assembleBit_full b h]
  · rw [assembleBit_short b h]

/-- A break drops the byte in progress and moves the cursor to `now`, whatever the break count (R126). -/
theorem assembleBreak_registers :
    (assembleBreak now s).currentBits = [] ∧ (assembleBreak now s).byteStartSample = 0 ∧
      (assembleBreak now s).cursorSample = (now : ℚ) := by
  cases h : s.breakCount with
  | one => simp [assembleBreak_one now h]
  | two => simp [assembleBreak_two now h]

/-- A symbol appends one bit to a byte it does not complete, or leaves no byte in progress (R121, R124, R126). -/
theorem dispatchSymbol_appends_or_clears :
    (s.currentBits.length ≠ 7 ∧ ∃ b, (dispatchSymbol sym now s).currentBits = s.currentBits ++ [b] ∧
      (dispatchSymbol sym now s).byteStartSample = s.byteStartSample) ∨
    ((dispatchSymbol sym now s).currentBits = [] ∧ (dispatchSymbol sym now s).byteStartSample = 0) := by
  cases sym with
  | bit b st dur =>
    by_cases h : s.currentBits.length = 7
    · exact .inr (by simp [assembleBit_full b h])
    · exact .inl ⟨h, b, by simp [assembleBit_short b h]⟩
  | brk st =>
    obtain ⟨hbits, hstart, -⟩ := assembleBreak_registers now s
    exact .inr ⟨hbits, hstart⟩

/-- No symbol moves the cursor below 0: a full byte advances it, a break sets it to an index (R24). -/
theorem dispatchSymbol_cursor_nonneg (hc : 0 ≤ s.cursorSample) :
    0 ≤ (dispatchSymbol sym now s).cursorSample := by
  cases sym with
  | bit b st dur =>
    have hw := bitWidth_pos s
    by_cases h : s.currentBits.length = 7
    · simp only [dispatchSymbol_bit, assembleBit_full b h]
      positivity
    · simpa only [dispatchSymbol_bit, assembleBit_short b h] using hc
  | brk st =>
    obtain ⟨-, -, hcursor⟩ := assembleBreak_registers now s
    rw [dispatchSymbol_brk, hcursor]
    exact Nat.cast_nonneg now

end

/-! ## A step with no symbol on the SYM interface -/

/-- With no symbol on the SYM interface a step idles, or runs the first input word on the state without it. -/
theorem step_cases_of_sym_none {s t : State} (hs : s.sym = none) (h : step s = .next t) :
    (s.inputs = [] ∧ t = s) ∨
    ∃ x rest i, s.inputs = x :: rest ∧ decodeEv x = .ok i ∧ exec i { s with inputs := rest } = .next t := by
  obtain ⟨hf, rfl⟩ | ⟨w, s1, i, hf, hd, he⟩ := step_cases h
  · exact .inl ⟨(fetch_eq_none.1 hf).2, rfl⟩
  · obtain ⟨x, hx, -, -⟩ | ⟨x, rest, -, hi, rfl, rfl⟩ := fetch_eq_some.1 hf
    · rw [hs] at hx
      exact nomatch hx
    · exact .inr ⟨x, rest, i, hi, hd, he⟩

/-! ## The invariant of every run -/

section
variable {s : State}

theorem RunInv.with_inputs (h : RunInv s) (rest : List EvIn) : RunInv { s with inputs := rest } :=
  { h with }

/-- Leaving a wait for the next falling edge or for good (HIGH, RISE before its symbol, END). -/
theorem RunInv.leave_wait (h : RunInv s)
    (hwait : s.phase = .sync ∨ s.phase = .waitFall ∨ s.phase = .waitRise)
    {p : Phase} (hp : p = .waitFall ∨ p = .done) : RunInv { s with phase := p } := by
  have hrate := h.cfgHasRate (by tauto)
  obtain rfl | rfl := hp <;>
    exact { h with
      cursorAtFall := nofun
      resetValues := by simp
      cfgEmpty := nofun
      cfgHasRate := fun _ => hrate
      cfgAbsent := nofun }

/-- FALL's latch: inside the pulse the cursor is the edge (R25). -/
theorem RunInv.latch_fall (h : RunInv s) (hp : s.phase = .waitFall) (n start : SampleIndex) :
    RunInv { s with
      fallSample := n, cursorSample := (n : ℚ), byteStartSample := start, phase := .waitRise } :=
  { h with
    cursorNonneg := Nat.cast_nonneg n
    cursorAtFall := fun _ => rfl
    resetValues := by simp
    cfgEmpty := nofun
    cfgHasRate := fun _ => h.cfgHasRate (.inr (.inl hp))
    cfgAbsent := nofun }

/-- A symbol dispatched while the next falling edge is awaited holds at most seven bits again. -/
theorem RunInv.dispatch (h : RunInv s) (hp : s.phase = .waitFall) (sym : Symbol) (now : SampleIndex) :
    RunInv (dispatchSymbol sym now s) where
  symEmpty := by simpa using h.symEmpty
  bitsAtMost7 := by
    have h7 := h.bitsAtMost7
    obtain ⟨hne, b, hbits, -⟩ | ⟨hbits, -⟩ := dispatchSymbol_appends_or_clears sym now s
    · rw [hbits, List.length_append, List.length_singleton]
      omega
    · simp [hbits]
  cursorNonneg := dispatchSymbol_cursor_nonneg sym now s h.cursorNonneg
  cursorAtFall := by simp [hp]
  resetValues := by simp [hp]
  cfgEmpty := by simp [hp]
  cfgHasRate := fun _ => by simpa using h.cfgHasRate (.inr (.inl hp))
  cfgAbsent := by simp [hp]

/-- START with a sample rate (R151): the reset values stay, and the rate is latched. -/
theorem RunInv.start (h : RunInv s) (hp : s.phase = .idle) (sr br : PosRat) :
    RunInv { s with cfg := some { sampleRate := some sr, bitRate := br }, phase := .sync } :=
  { h with
    cursorAtFall := nofun
    resetValues := fun _ => h.resetValues (.inl hp)
    cfgEmpty := nofun
    cfgHasRate := fun _ => ⟨sr, br, rfl⟩
    cfgAbsent := nofun }

/-- START without a sample rate (R182): the reset values stay, and the rate is absent. -/
theorem RunInv.configurationError (h : RunInv s) (hp : s.phase = .idle) (br : PosRat) :
    RunInv (takeConfigurationError s br) :=
  { h with
    cursorAtFall := nofun
    resetValues := fun _ => h.resetValues (.inl hp)
    cfgEmpty := nofun
    cfgHasRate := by simp
    cfgAbsent := fun _ => ⟨br, rfl⟩ }

/-- RESET (R156) establishes the invariant of any state with no symbol on the SYM interface. -/
theorem runInv_resetRegisters (hs : s.sym = none) : RunInv (resetRegisters s) where
  symEmpty := hs
  bitsAtMost7 := Nat.zero_le 7
  cursorNonneg := le_refl 0
  cursorAtFall := nofun
  resetValues := fun _ => ⟨rfl, rfl, rfl, rfl, rfl⟩
  cfgEmpty := fun _ => rfl
  cfgHasRate := by simp
  cfgAbsent := nofun

/-- Every operation of the `ev` port keeps the invariant. -/
theorem RunInv.of_exec {i : Instr} {t : State} (h : RunInv s) (hi : i.onEvPort = true)
    (he : exec i s = .next t) : RunInv t := by
  obtain ⟨n, -, hp, rfl⟩ | ⟨n, -, hp, rfl⟩ | ⟨n, -, hp, rfl⟩ | ⟨-, hp, rfl⟩ | ⟨c, sr, -, -, hp, rfl⟩ |
    ⟨c, -, -, hp, rfl⟩ | ⟨-, rfl⟩ | ⟨_, _, rfl, -⟩ | ⟨_, _, rfl, -⟩ | ⟨_, _, rfl, -⟩ := exec_cases he
  · exact h.leave_wait (.inl hp) (.inl rfl)
  · exact h.latch_fall hp n _
  · exact (h.leave_wait (.inr (.inr hp)) (.inl rfl)).dispatch rfl _ n
  · exact h.leave_wait hp (.inr rfl)
  · exact h.start hp sr c.bitRate
  · exact h.configurationError hp c.bitRate
  · exact runInv_resetRegisters h.symEmpty
  · exact nomatch hi
  · exact nomatch hi
  · exact nomatch hi

end

/-- Settles O38: with no word run yet every register holds its value of R35. -/
theorem resetMeetsInvariant : Obligations.ResetMeetsInvariant :=
  runInv_resetRegisters (s := State.reset) rfl

/-- Settles O39: the fetch takes an input word away, and each operation of the `ev` port keeps the invariant. -/
theorem stepKeepsInvariant : Obligations.StepKeepsInvariant := by
  intro s t h hstep
  obtain ⟨-, rfl⟩ | ⟨x, rest, i, -, hd, he⟩ := step_cases_of_sym_none h.symEmpty hstep
  · exact h
  · exact (h.with_inputs rest).of_exec (onEvPort_of_decodeEv hd) he

/-- Settles O42: a RISE runs only in `WaitRise`, where the invariant has a sample rate latched. -/
theorem decodingUsesTheConfiguredBitWidth : Obligations.DecodingUsesTheConfiguredBitWidth := by
  intro s t x rest n h hin hdec hstep
  obtain ⟨hempty, -⟩ | ⟨y, rest', i, hin', hdec', he⟩ := step_cases_of_sym_none h.symEmpty hstep
  · rw [hin] at hempty
    exact nomatch hempty
  · obtain ⟨rfl, rfl⟩ := List.cons.inj (hin.symm.trans hin')
    obtain rfl := Except.ok.inj (hdec.symm.trans hdec')
    obtain ⟨hp, -⟩ := acceptIn_next.1 he
    have hrise : s.phase = .waitRise := List.mem_singleton.1 hp
    obtain ⟨sr, br, hcfg⟩ := h.cfgHasRate (.inr (.inr (.inl hrise)))
    exact ⟨sr, br, hcfg, by rw [bitWidth, hcfg, bitWidthOf]⟩

/-! ## The invariants under the EdgeSource contract -/

section
variable {s t : State} {i : Instr}

theorem ContractInv.consume (h : ContractInv s) {x : EvIn} {rest : List EvIn} (hin : s.inputs = x :: rest) :
    ContractInv { s with inputs := rest } :=
  { h with
    base := h.base.with_inputs rest
    contract := fun y hy => h.contract y (hin ▸ List.mem_cons_of_mem x hy) }

/-- Under the contract a FALL that is the next word has an index of at least 1 (R189). -/
theorem fallsPositive.one_le_of_fall (h : fallsPositive s) {x : EvIn} {rest : List EvIn} {n : SampleIndex}
    (hin : s.inputs = x :: rest) (hdec : decodeEv x = .ok (.fall n)) : 1 ≤ n := by
  obtain ⟨-, e⟩ | ⟨hop, e⟩ | ⟨-, e⟩ | ⟨-, e⟩ | ⟨-, e⟩ | ⟨-, e⟩ | ⟨-, e⟩ := decodeEv_cases x <;>
    rw [e] at hdec <;> cases hdec
  exact h x (by simp [hin]) hop

/-- Only FALL leads into a pulse (R157), and it latches its index. -/
theorem exec_into_waitRise (hi : i.onEvPort = true) (he : exec i s = .next t) (ht : t.phase = .waitRise) :
    ∃ n, i = .fall n ∧ t.fallSample = n ∧
      t.byteStartSample = if s.byteStartSample = 0 then n else s.byteStartSample := by
  obtain ⟨_, -, -, rfl⟩ | ⟨n, rfl, -, rfl⟩ | ⟨_, -, -, rfl⟩ | ⟨-, -, rfl⟩ | ⟨_, _, -, -, -, rfl⟩ |
    ⟨_, -, -, -, rfl⟩ | ⟨-, rfl⟩ | ⟨_, _, rfl, -⟩ | ⟨_, _, rfl, -⟩ | ⟨_, _, rfl, -⟩ := exec_cases he
  · exact nomatch ht
  · exact ⟨n, rfl, rfl, rfl⟩
  · simp at ht
  · exact nomatch ht
  · exact nomatch ht
  · exact nomatch ht
  · exact nomatch ht
  · exact nomatch hi
  · exact nomatch hi
  · exact nomatch hi

/-- R30 (iii) after an operation: a pulse that ends adds a bit to a byte whose start is set, or clears both. -/
theorem ContractInv.startIffBits_of_exec (h : ContractInv s) (hi : i.onEvPort = true)
    (he : exec i s = .next t) (ht : t.phase = .idle ∨ t.phase = .sync ∨ t.phase = .waitFall) :
    t.byteStartSample = 0 ↔ t.currentBits = [] := by
  obtain ⟨_, -, hp, rfl⟩ | ⟨_, -, -, rfl⟩ | ⟨n, -, hp, rfl⟩ | ⟨-, -, rfl⟩ | ⟨_, _, -, -, hp, rfl⟩ |
    ⟨_, -, -, -, rfl⟩ | ⟨-, rfl⟩ | ⟨_, _, rfl, -⟩ | ⟨_, _, rfl, -⟩ | ⟨_, _, rfl, -⟩ := exec_cases he
  · exact h.startIffBits (.inr (.inl hp))
  · simp at ht
  · obtain ⟨hstart, -⟩ := h.startInPulse hp
    obtain ⟨-, b, hbits, hkept⟩ | ⟨hbits, hcleared⟩ := dispatchSymbol_appends_or_clears
      (classify (bitWidth s) s.fallSample (pulseWidth s.fallSample n)) n { s with phase := .waitFall }
    · simp [hbits, hkept, hstart]
    · simp [hbits, hcleared]
  · simp at ht
  · exact h.startIffBits (.inl hp)
  · simp at ht
  · simp
  · exact nomatch hi
  · exact nomatch hi
  · exact nomatch hi

/-- Every operation of the `ev` port keeps the invariants, where a FALL has an index of at least 1. -/
theorem ContractInv.of_exec (h : ContractInv s) (hi : i.onEvPort = true)
    (hfall : ∀ n, i = .fall n → 1 ≤ n) (he : exec i s = .next t) : ContractInv t where
  base := h.base.of_exec hi he
  contract := by
    obtain ⟨hin, -⟩ := exec_streams he
    rw [fallsPositive, hin]
    exact h.contract
  startIffBits := h.startIffBits_of_exec hi he
  startInPulse ht := by
    obtain ⟨n, rfl, hlatch, hstart⟩ := exec_into_waitRise hi he ht
    have hn : 1 ≤ n := hfall n rfl
    refine ⟨?_, hlatch ▸ hn⟩
    rw [hstart]
    split
    · exact Nat.one_le_iff_ne_zero.1 hn
    · next hset => exact hset

end

/-- Settles O40: no word waits, and neither a bit nor a byte start is held. -/
theorem resetMeetsContractInvariant : Obligations.ResetMeetsContractInvariant where
  base := resetMeetsInvariant
  contract := nofun
  startIffBits := fun _ => ⟨fun _ => rfl, fun _ => rfl⟩
  startInPulse := nofun

/-- Settles O41: the word the fetch takes away meets the contract, so a FALL sets a byte start that is not 0. -/
theorem stepKeepsContractInvariant : Obligations.StepKeepsContractInvariant := by
  intro s t h hstep
  obtain ⟨-, rfl⟩ | ⟨x, rest, i, hin, hdec, he⟩ := step_cases_of_sym_none h.base.symEmpty hstep
  · exact h
  · refine (h.consume hin).of_exec (onEvPort_of_decodeEv hdec) ?_ he
    rintro n rfl
    exact h.contract.one_le_of_fall hin hdec

/-! ## The access table and the derived values -/

/-- Settles O9, by the operation that ran: an input operation names in its next state the registers it writes,
and what a RISE's symbol, a bit or a break leaves alone is the frame of `dispatchSymbol`. -/
theorem onlyListedOperationsWriteARegister : Obligations.OnlyListedOperationsWriteARegister := by
  intro i s t he
  obtain ⟨_, rfl, -, rfl⟩ | ⟨_, rfl, -, rfl⟩ | ⟨_, rfl, -, rfl⟩ | ⟨rfl, -, rfl⟩ | ⟨_, _, rfl, -, -, rfl⟩ |
    ⟨_, rfl, -, -, rfl⟩ | ⟨rfl, rfl⟩ | ⟨_, _, rfl, rfl⟩ | ⟨_, _, rfl, rfl⟩ | ⟨_, _, rfl, rfl⟩ := exec_cases he
  -- HIGH, FALL: the registers written stand in the record.
  · simp
  · simp
  -- RISE: `dispatchSymbol` on a state with a new phase.
  · simp
  -- END, START with and without a sample rate, RESET: records again.
  · simp
  · simp
  · simp
  · simp
  -- BIT0 and BIT1 keep `break_count` too (`assembleBit_breakCount`); BREAK does not.
  · simp
  · simp
  · simp

/-- Settles O24: the half width and the threshold are 1/2 and 6/5 of a positive width. -/
theorem derivedConfigurationValues : Obligations.DerivedConfigurationValues := by
  have hhalf (w : ℚ) : halfBitWidth w = w / 2 := by rw [halfBitWidth, kHalf_eq]; ring
  have hbreak (w : ℚ) : breakThreshold w = w * (6 / 5) := by rw [breakThreshold, kBreak_eq]; ring
  refine ⟨fun sr br => rfl, fun w => ⟨hhalf w, hbreak w⟩, fun s sr br hcfg => ?_⟩
  have hw : 0 < bitWidth s := bitWidth_pos s
  rw [hhalf, hbreak]
  refine ⟨by rw [bitWidth, hcfg, bitWidthOf], ?_, ?_⟩
  · linarith
  · linarith

end Sys2Proof.Machine
end

section
/-! Proofs of the statements about the memory (20_memory.md): the two streams (R51, R52, R59), replaying after
RESET (R65), and how eight bits become one byte (R54, R56). -/

namespace Sys2Proof.Machine

/-! ## The output is never read (R34, R52): what was emitted before is carried along -/

section
variable (pre : List Annotation)

/-- `s` with `pre` emitted before everything `s` has emitted. -/
def State.precededBy (s : State) : State := { s with ann := pre ++ s.ann }

/-- An outcome with its next state, where it has one, changed by `f`. -/
def mapNext (f : State → State) : Host.Outcome State Fault Refusal → Host.Outcome State Fault Refusal
  | .next t    => .next (f t)
  | .fault r   => .fault r
  | .refused r => .refused r

/-- A word is accepted by the phase alone. -/
theorem acceptIn_precededBy (ps : List Phase) (s : State) {t t' : State} (ht : t' = t.precededBy pre) :
    acceptIn ps (s.precededBy pre) t' = mapNext (State.precededBy pre) (acceptIn ps s t) := by
  by_cases h : s.phase ∈ ps
  · rw [acceptIn_of_mem h, acceptIn_of_mem (s := s.precededBy pre) h, ht, mapNext]
  · rw [acceptIn_of_not_mem h, acceptIn_of_not_mem (s := s.precededBy pre) h, mapNext]

theorem dispatchSymbol_precededBy (sym : Symbol) (now : SampleIndex) (s : State) :
    dispatchSymbol sym now (s.precededBy pre) = (dispatchSymbol sym now s).precededBy pre := by
  cases sym with
  | bit b st dur =>
    rw [dispatchSymbol_bit, dispatchSymbol_bit]
    by_cases h : s.currentBits.length = 7
    · rw [assembleBit_full b h, assembleBit_full b (s := s.precededBy pre) h]
      simp [State.precededBy, bitWidth]
    · rw [assembleBit_short b h, assembleBit_short b (s := s.precededBy pre) h]
      simp [State.precededBy, bitWidth]
  | brk st =>
    rw [dispatchSymbol_brk, dispatchSymbol_brk]
    cases h : s.breakCount with
    | one =>
      rw [assembleBreak_one now h, assembleBreak_one now (s := s.precededBy pre) h]
      simp [State.precededBy, bitWidth]
    | two =>
      rw [assembleBreak_two now h, assembleBreak_two now (s := s.precededBy pre) h]
      simp [State.precededBy, bitWidth]

/-- An instruction appends to the output and reads none of it. -/
theorem exec_precededBy (i : Instr) (s : State) :
    exec i (s.precededBy pre) = mapNext (State.precededBy pre) (exec i s) := by
  cases i with
  | high n => exact acceptIn_precededBy pre _ s rfl
  | fall n => exact acceptIn_precededBy pre _ s rfl
  | rise n => exact acceptIn_precededBy pre _ s (dispatchSymbol_precededBy pre _ n { s with phase := .waitFall })
  | endInput => exact acceptIn_precededBy pre _ s rfl
  | start c =>
    obtain ⟨_ | sr, br⟩ := c
    · exact acceptIn_precededBy pre _ s rfl
    · exact acceptIn_precededBy pre _ s rfl
  | reset => rfl
  | bit0 st dur => exact congrArg _ (dispatchSymbol_precededBy pre (.bit false st dur) 0 s)
  | bit1 st dur => exact congrArg _ (dispatchSymbol_precededBy pre (.bit true st dur) 0 s)
  | brk st now => exact congrArg _ (dispatchSymbol_precededBy pre (.brk st) now s)

theorem step_precededBy (s : State) :
    step (s.precededBy pre) = mapNext (State.precededBy pre) (step s) := by
  have hfetch : fetch (s.precededBy pre) = (fetch s).map fun p => (p.1, p.2.precededBy pre) := by
    unfold fetch State.precededBy
    cases s.sym with
    | some x => rfl
    | none => cases s.inputs <;> rfl
  unfold step
  rw [hfetch]
  cases fetch s with
  | none => rfl
  | some p =>
    obtain ⟨w, s1⟩ := p
    cases hd : decode w with
    | error e => simp [hd, mapNext]
    | ok i => simpa [hd] using exec_precededBy pre i s1

/-- A run carries along what was emitted before it. -/
theorem runSteps_precededBy (n : Nat) (s : State) :
    runSteps n (s.precededBy pre) = mapNext (State.precededBy pre) (runSteps n s) := by
  induction n generalizing s with
  | zero => rfl
  | succ n ih =>
    have hstep := step_precededBy pre s
    cases h : step s with
    | next t =>
      rw [h] at hstep
      rw [runSteps_of_next n h, runSteps_of_next n hstep, ih]
    | fault r => exact nomatch r
    | refused r =>
      rw [h] at hstep
      rw [runSteps_of_refused n h, runSteps_of_refused n hstep, mapNext]

end

/-- A run that begins with RESET is the run from the reset state, after what was emitted before (R65, R156). -/
theorem runTrace_reset_cons (tr : List Instr) (s : State) :
    runTrace (.reset :: tr) s = mapNext (State.precededBy s.ann) (runTrace tr State.reset) := by
  have hreset : exec .reset (deliver tr s) = .next ((deliver tr State.reset).precededBy s.ann) := by
    simp [exec, execReset, resetRegisters, State.precededBy, deliver, State.reset]
  rw [runTrace_cons rfl hreset]
  exact runSteps_precededBy s.ann tr.length (deliver tr State.reset)

/-- Settles O44: after RESET every run is the one from the reset state, behind what its state had emitted. -/
theorem replayAfterResetIsIdentical : Obligations.ReplayAfterResetIsIdentical := by
  intro tr s1 s2
  rw [runTrace_reset_cons tr s1, runTrace_reset_cons tr s2]
  cases runTrace tr State.reset with
  | next u =>
    refine ⟨nofun, ?_⟩
    rintro t1 ⟨⟩
    exact ⟨u.precededBy s2.ann, u.ann, rfl, rfl, rfl, rfl⟩
  | fault r => exact nomatch r
  | refused r => exact ⟨fun _ h => h, nofun⟩

/-! ## The streams (R51, R52, R59) -/

/-- Settles O7: the fetch takes the first input word away, and no instruction touches the words that wait. -/
theorem inputsAreConsumedInOrder : Obligations.InputsAreConsumedInOrder := by
  intro s t hs hstep
  obtain ⟨hempty, rfl⟩ | ⟨x, rest, i, hin, -, he⟩ := step_cases_of_sym_none hs hstep
  · exact .inl ⟨hempty, rfl⟩
  · obtain ⟨hrest, -⟩ := exec_streams he
    exact .inr ⟨x, by rw [hin, hrest]⟩

/-- A symbol appends at most four annotations: the most is a bit that completes a byte (R121, R124, R126). -/
theorem dispatchSymbol_ann (sym : Symbol) (now : SampleIndex) (s : State) :
    ∃ new, (dispatchSymbol sym now s).ann = s.ann ++ new ∧ new.length ≤ 4 := by
  cases sym with
  | bit b st dur =>
    by_cases h : s.currentBits.length = 7
    · exact ⟨_, by rw [dispatchSymbol_bit, assembleBit_full b h], by simp⟩
    · exact ⟨_, by rw [dispatchSymbol_bit, assembleBit_short b h], by simp⟩
  | brk st =>
    cases h : s.breakCount with
    | one => exact ⟨_, by rw [dispatchSymbol_brk, assembleBreak_one now h], by simp⟩
    | two => exact ⟨_, by rw [dispatchSymbol_brk, assembleBreak_two now h], by simp⟩

/-- Every instruction appends at most four annotations: those of the symbol it dispatches, or none. -/
theorem exec_ann {i : Instr} {s t : State} (h : exec i s = .next t) :
    ∃ new, t.ann = s.ann ++ new ∧ new.length ≤ 4 := by
  have hnone : ∃ new, s.ann = s.ann ++ new ∧ new.length ≤ 4 := ⟨[], by simp⟩
  obtain ⟨_, -, -, rfl⟩ | ⟨_, -, -, rfl⟩ | ⟨n, -, -, rfl⟩ | ⟨-, -, rfl⟩ | ⟨_, _, -, -, -, rfl⟩ |
    ⟨_, -, -, -, rfl⟩ | ⟨-, rfl⟩ | ⟨_, _, -, rfl⟩ | ⟨_, _, -, rfl⟩ | ⟨_, now, -, rfl⟩ := exec_cases h
  · exact hnone
  · exact hnone
  · exact dispatchSymbol_ann _ n { s with phase := .waitFall }
  · exact hnone
  · exact hnone
  · exact hnone
  · exact hnone
  · exact dispatchSymbol_ann (.bit false 0 0) 0 s
  · exact dispatchSymbol_ann (.bit true 0 0) 0 s
  · exact dispatchSymbol_ann (.brk 0) now s

/-- Settles O8: the fetch leaves the output alone, and the instruction appends to it. -/
theorem outputGrowsAtItsEnd : Obligations.OutputGrowsAtItsEnd := by
  intro s t hstep
  obtain ⟨-, rfl⟩ | ⟨w, s1, i, hf, -, he⟩ := step_cases hstep
  · exact ⟨[], by simp⟩
  · have hann : s1.ann = s.ann := by
      obtain ⟨_, -, -, rfl⟩ | ⟨_, _, -, -, -, rfl⟩ := fetch_eq_some.1 hf <;> rfl
    exact hann ▸ exec_ann he

/-! ## Pack (R54, R125) -/

@[simp] theorem pack_nil : pack [] = 0 := rfl

/-- The bit that arrives last is the least significant. -/
@[simp] theorem pack_concat (bits : List Bool) (b : Bool) : pack (bits ++ [b]) = pack bits * 2 + b.toNat := by
  simp [pack]

theorem pack_lt (bits : List Bool) : pack bits < 2 ^ bits.length := by
  induction bits using List.reverseRecOn with
  | nil => simp
  | append_singleton bits b ih =>
    have hb := b.toNat_le
    rw [pack_concat, List.length_append, List.length_singleton, pow_succ]
    omega

/-- Pack loses no bit: the `i`-th of `n` bits received has weight `2 ^ (n - 1 - i)`. -/
theorem pack_testBit (bits : List Bool) (i : Nat) (h : i < bits.length) :
    (pack bits).testBit (bits.length - 1 - i) = bits[i] := by
  induction bits using List.reverseRecOn with
  | nil => exact absurd h (Nat.not_lt_zero i)
  | append_singleton bits b ih =>
    have hbit : pack (bits ++ [b]) = Nat.bit b (pack bits) := by
      rw [pack_concat, Nat.bit_val, Nat.mul_comm]
    rw [List.length_append, List.length_singleton] at h
    rw [hbit, List.length_append, List.length_singleton, Nat.add_sub_cancel]
    obtain hlt | rfl := Nat.lt_succ_iff_lt_or_eq.1 h
    · rw [show bits.length - i = bits.length - 1 - i + 1 by omega, Nat.testBit_bit_succ, ih hlt,
        List.getElem_append_left hlt]
    · simp

/-- Settles O30: eight bits pack to less than `2 ^ 8`, so the byte is the packed number itself, bit for bit. -/
theorem packIsMostSignificantFirst : Obligations.PackIsMostSignificantFirst := by
  refine ⟨fun b0 b1 b2 b3 b4 b5 b6 b7 => ?_, fun bits hlen => ?_⟩
  · simp only [pack, List.foldl_cons, List.foldl_nil]
    ring
  · have hlt : pack bits < 2 ^ 8 := hlen ▸ pack_lt bits
    have hval : (packByte bits).toNat = pack bits := by
      rw [packByte, BitVec.toNat_ofNat, Nat.mod_eq_of_lt hlt]
    refine ⟨Nat.le_of_lt_succ hlt, hval, fun i h => ?_⟩
    rw [BitVec.getLsbD, hval, ← pack_testBit bits i h, hlen]

/-! ## Eight bits make one byte (R56, R124, R131) -/

/-- The Bit annotation of a pulse that is no break, under the bit width `w` (R121). -/
def pulseAnnotation (w : ℚ) (p : SampleIndex × SampleIndex) : Annotation :=
  { startPos := p.1, endPos := p.1 + w, cat := .bit, data := bitData (pulseBit w p) }

/-- What a byte that ends with the bit at `last` adds to its Bit annotations, under the bit width `w` (R124). -/
def byteAnnotations (w : ℚ) (first last : SampleIndex) (value : Byte) : List Annotation :=
  [{ startPos := first, endPos := last + w, cat := .byte, data := value },
   { startPos := first, endPos := last + w, cat := .char, data := value },
   { startPos := last + 3 / 10 * w, endPos := last + 3 / 10 * w + 13 / 10 * w, cat := .stop, data := 0#8 }]

theorem bitWidth_afterFall_deliver (f : SampleIndex) (tr : List Instr) (s : State) :
    bitWidth (afterFall f (deliver tr s)) = bitWidth s := rfl

/-- A pulse that is no break runs as the bit it stands for, on a state with its falling edge latched. -/
theorem runTrace_pulseWords_bit {s : State} (hp : s.phase = .waitFall) {p : SampleIndex × SampleIndex}
    (hb : isBreakPulse (bitWidth s) p = false) (qs : List (SampleIndex × SampleIndex)) :
    runTrace (pulseWords (p :: qs)) s =
      runTrace (pulseWords qs)
        (assembleBit (pulseBit (bitWidth s) p) (afterFall p.1 (deliver (pulseWords qs) s))) := by
  refine (runTrace_pulse hp p.1 p.2 (pulseWords qs)).trans ?_
  rw [classify_of_not_break hb, dispatchSymbol_bit]

/-- `u` is where the pulses `ps` lead from `s`, when they are no breaks and fewer than make a byte: their bits
are held since the first falling edge, and one Bit annotation each is what they emitted. -/
structure HoldsBits (s : State) (ps : List (SampleIndex × SampleIndex)) (u : State) : Prop where
  phase           : u.phase = .waitFall
  cfg             : u.cfg = s.cfg
  breakCount      : u.breakCount = s.breakCount
  currentBits     : u.currentBits = ps.map (pulseBit (bitWidth s))
  byteStartSample : u.byteStartSample = (ps.headD (0, 0)).1
  ann             : u.ann = s.ann ++ ps.map (pulseAnnotation (bitWidth s))

section
variable {s u : State} {ps : List (SampleIndex × SampleIndex)} {p : SampleIndex × SampleIndex}

theorem HoldsBits.bitWidth_eq (h : HoldsBits s ps u) : bitWidth u = bitWidth s := bitWidth_congr h.cfg

/-- The first falling edge fills the sentinel 0 of the byte start, and a later one leaves it (R153). -/
theorem HoldsBits.byteStart_after_fall (h : HoldsBits s ps u) (hps : ∀ q ∈ ps, 1 ≤ q.1) :
    (if u.byteStartSample = 0 then p.1 else u.byteStartSample) = ((ps ++ [p]).headD (0, 0)).1 := by
  rw [h.byteStartSample]
  cases ps with
  | nil => rfl
  | cons q qs =>
    have hq : 1 ≤ q.1 := hps q List.mem_cons_self
    exact if_neg (Nat.one_le_iff_ne_zero.1 hq)

/-- One more pulse before the eighth adds its bit. -/
theorem HoldsBits.pulse (h : HoldsBits s ps u) (hps : ∀ q ∈ ps, 1 ≤ q.1) (hlen : ps.length < 7)
    (hb : isBreakPulse (bitWidth s) p = false) (qs : List (SampleIndex × SampleIndex)) :
    ∃ v, runTrace (pulseWords (p :: qs)) u = runTrace (pulseWords qs) v ∧ HoldsBits s (ps ++ [p]) v := by
  have hw := h.bitWidth_eq
  refine ⟨_, runTrace_pulseWords_bit h.phase (hw ▸ hb) qs, ?_⟩
  have hshort : (afterFall p.1 (deliver (pulseWords qs) u)).currentBits.length ≠ 7 := by
    simp [afterFall, h.currentBits, hlen.ne]
  rw [assembleBit_short _ hshort, bitWidth_afterFall_deliver, hw]
  exact
    { phase := rfl
      cfg := h.cfg
      breakCount := h.breakCount
      currentBits := by simp [afterFall, h.currentBits]
      byteStartSample := h.byteStart_after_fall hps
      ann := by simp [afterFall, h.ann, pulseAnnotation] }

/-- Up to seven bits are held, whatever pulses follow. -/
theorem HoldsBits.pulses (h : HoldsBits s ps u) (qs rest : List (SampleIndex × SampleIndex))
    (hlen : (ps ++ qs).length ≤ 7)
    (hq : ∀ q ∈ ps ++ qs, 1 ≤ q.1 ∧ isBreakPulse (bitWidth s) q = false) :
    ∃ v, runTrace (pulseWords (qs ++ rest)) u = runTrace (pulseWords rest) v ∧ HoldsBits s (ps ++ qs) v := by
  induction qs generalizing ps u with
  | nil => exact ⟨u, rfl, by simpa using h⟩
  | cons q qs ih =>
    have hsplit : ps ++ q :: qs = ps ++ [q] ++ qs := by simp
    have hlt : ps.length < 7 := by
      rw [List.length_append, List.length_cons] at hlen
      omega
    obtain ⟨v, hrun, hv⟩ := h.pulse (fun r hr => (hq r (List.mem_append_left _ hr)).1) hlt
      (hq q (by simp)).2 (qs ++ rest)
    rw [hsplit] at hlen hq ⊢
    obtain ⟨v', hrun', hv'⟩ := ih hv hlen hq
    exact ⟨v', hrun.trans hrun', hv'⟩

/-- The eighth pulse completes the byte, which runs from the first of the eight falling edges (R124, R131). -/
theorem HoldsBits.eighth_pulse (h : HoldsBits s ps u) (hps : ∀ q ∈ ps, 1 ≤ q.1) (hlen : ps.length = 7)
    (hb : isBreakPulse (bitWidth s) p = false) :
    ∃ t, runTrace (pulseWords [p]) u = .next t ∧
      t.ann = s.ann ++ ((ps ++ [p]).map (pulseAnnotation (bitWidth s)) ++
        byteAnnotations (bitWidth s) ((ps ++ [p]).headD (0, 0)).1 p.1
          (packByte ((ps ++ [p]).map (pulseBit (bitWidth s))))) ∧
      t.currentBits = [] ∧ t.byteStartSample = 0 ∧ t.breakCount = s.breakCount ∧ t.phase = .waitFall := by
  have hw := h.bitWidth_eq
  have hfull : (afterFall p.1 (deliver (pulseWords []) u)).currentBits.length = 7 := by
    simp [afterFall, h.currentBits, hlen]
  have hfirst : (afterFall p.1 (deliver (pulseWords []) u)).byteStartSample = ((ps ++ [p]).headD (0, 0)).1 :=
    h.byteStart_after_fall hps
  have hrun := runTrace_pulseWords_bit h.phase (p := p) (hw ▸ hb) []
  rw [assembleBit_full _ hfull, bitWidth_afterFall_deliver, hw, hfirst] at hrun
  refine ⟨_, hrun, ?_, rfl, rfl, h.breakCount, rfl⟩
  simp [afterFall, h.currentBits, h.ann, pulseAnnotation, byteAnnotations]

end

/-- Bit annotations pass no filter for another category. -/
theorem filter_pulseAnnotations {c : Category} (hc : c ≠ .bit) (w : ℚ) (ps : List (SampleIndex × SampleIndex)) :
    (ps.map (pulseAnnotation w)).filter (fun a => a.cat = c) = [] := by
  rw [List.filter_eq_nil_iff]
  intro a ha
  obtain ⟨q, -, rfl⟩ := List.mem_map.1 ha
  simp [pulseAnnotation, hc.symm]

theorem countCat_append (c : Category) (l m : List Annotation) :
    countCat c (l ++ m) = countCat c l + countCat c m := List.countP_append

theorem countCat_pulseAnnotations {c : Category} (hc : c ≠ .bit) (w : ℚ) (ps : List (SampleIndex × SampleIndex)) :
    countCat c (ps.map (pulseAnnotation w)) = 0 := by
  rw [countCat, List.countP_eq_length_filter, filter_pulseAnnotations hc, List.length_nil]

/-- Every pulse that is no break counts as one Bit. -/
theorem countCat_bit_pulseAnnotations (w : ℚ) (ps : List (SampleIndex × SampleIndex)) :
    countCat .bit (ps.map (pulseAnnotation w)) = ps.length := by
  rw [countCat, List.countP_eq_length.2, List.length_map]
  intro a ha
  obtain ⟨q, -, rfl⟩ := List.mem_map.1 ha
  rfl

/-- Settles O45: seven pulses are held as bits, and the eighth completes the byte. -/
theorem eightPulsesMakeOneByte : Obligations.EightPulsesMakeOneByte := by
  intro s ps hphase hbits hstart hlen hps
  obtain rfl | ⟨qs, p, rfl⟩ := List.eq_nil_or_concat' ps
  · exact nomatch hlen
  have hlen7 : qs.length = 7 := by
    rw [List.length_append, List.length_singleton] at hlen
    omega
  have hqs : ∀ q ∈ qs, 1 ≤ q.1 ∧ isBreakPulse (bitWidth s) q = false := fun q hq =>
    hps q (List.mem_append_left _ hq)
  have hempty : HoldsBits s [] s := ⟨hphase, rfl, rfl, hbits, hstart, (List.append_nil _).symm⟩
  obtain ⟨u, hrun, hu⟩ := hempty.pulses qs [p] hlen7.le hqs
  rw [List.nil_append] at hu
  obtain ⟨t, hlast, hann, hregs⟩ := hu.eighth_pulse (fun q hq => (hqs q hq).1) hlen7 (hps p (by simp)).2
  refine ⟨t, _, hrun.trans hlast, hann, ?_, ?_, ?_, ?_, ?_, hregs⟩
  · simp [byteAnnotations, hlen7]
  · rw [countCat_append, countCat_bit_pulseAnnotations, hlen]
    rfl
  · rw [countCat_append, countCat_pulseAnnotations (by decide)]
    rfl
  · rw [List.filter_append, filter_pulseAnnotations (by decide), List.getLastD_concat]
    rfl
  · rw [List.filter_append, filter_pulseAnnotations (by decide), List.getLastD_concat]
    rfl

end Sys2Proof.Machine
end

section
/-! Proofs of the statements about the encoding (30_encoding.md): the EV word (R71 to R73, R82), the CFGIN word
(R74), the ANN record (R76 to R81), the fault and status ports (R70, R86), and the well-formed traces (R84). -/

namespace Sys2Proof

/-! ## The EV word as its fields (R71) -/

section
variable (sw : Nat) (w : BitVec (3 + sw)) (cfg : CfgIn)

@[simp] theorem evOfBits_cfg : (evOfBits sw w cfg).cfg = cfg := rfl

theorem evOfBits_t : (evOfBits sw w cfg).t = w.toNat % 2 ^ sw := BitVec.toNat_setWidth sw w

theorem evOfBits_op_toNat : (evOfBits sw w cfg).op.toNat = w.toNat / 2 ^ sw := by
  have hop : w.toNat / 2 ^ sw < 2 ^ 3 := 
    (Nat.div_lt_iff_lt_mul (Nat.two_pow_pos sw)).2 (by rw [← pow_add]; exact w.isLt)
  rw [evOfBits, BitVec.extractLsb'_toNat, Nat.shiftRight_eq_div_pow, Nat.mod_eq_of_lt hop]

end

/-- The fields read from the word `{op, t}` are the ones it was made of, when `t` fits. -/
theorem evOfBits_append {sw : Nat} {x : EvIn} (h : x.t < 2 ^ sw) :
    evOfBits sw (x.op ++ BitVec.ofNat sw x.t) x.cfg = x := by
  rw [evOfBits, BitVec.extractLsb'_append_eq_left, BitVec.setWidth_append_eq_right, BitVec.toNat_ofNat,
    Nat.mod_eq_of_lt h]

/-! ## Decode after encode (R71, R72, R75) -/

@[simp] theorem toCfg_cfgInOf (c : Cfg) : (cfgInOf c).toCfg = c := by
  obtain ⟨_ | sr, br⟩ := c
  · rfl
  · rfl

theorem decode_encode (i : Instr) : decode (encode i) = .ok i := by
  cases i with
  | start c => exact congrArg (fun c => Except.ok (Instr.start c)) (toCfg_cfgInOf c)
  | _ => rfl

/-- The index in the word of an instruction fits exactly when the instruction is well formed: END, START and
RESET carry 0. -/
theorem encodeEv_t_lt_iff {i : Instr} {x : EvIn} (h : encodeEv i = some x) (sw : Nat) :
    x.t < 2 ^ sw ↔ i.wellFormed sw = true := by
  cases i with
  | high t => cases h; exact decide_eq_true_iff.symm
  | fall t => cases h; exact decide_eq_true_iff.symm
  | rise t => cases h; exact decide_eq_true_iff.symm
  | endInput => cases h; exact iff_of_true (Nat.two_pow_pos sw) rfl
  | start c => cases h; exact iff_of_true (Nat.two_pow_pos sw) rfl
  | reset => cases h; exact iff_of_true (Nat.two_pow_pos sw) rfl
  | bit0 st dur => exact nomatch h
  | bit1 st dur => exact nomatch h
  | brk st now => exact nomatch h

/-- Settles O1: the fields round trip, and the word of `SAMPLE_W + 3` bits gives the fields back when `t` fits. -/
theorem decodeOfEncodeIsTheInstruction : Obligations.DecodeOfEncodeIsTheInstruction := by
  intro i
  refine ⟨decode_encode i, fun sw x hx => ⟨fun hwf => ?_, fun hwf => ?_⟩⟩
  · have hfits : x.t < 2 ^ sw := (encodeEv_t_lt_iff hx sw).2 hwf
    refine ⟨_, evToBits_of_lt hfits, ?_⟩
    rw [evOfBits_append hfits]
    exact Machine.decodeEv_of_encodeEv hx
  · have hfits : ¬ x.t < 2 ^ sw := by simp [encodeEv_t_lt_iff hx, hwf]
    exact evToBits_eq_none_iff.2 (Nat.le_of_not_lt hfits)

/-! ## Every EV word (R72, R73, R82) -/

theorem decodeEv_reserved {x : EvIn} (h : 6 ≤ x.op.toNat) : decodeEv x = .error .reservedOp := by
  obtain ⟨k, hk⟩ := Nat.exists_eq_add_of_le' h
  rw [decodeEv, hk]
  rfl

/-- Settles O2: the decoder reads the code in `op`, which is the quotient of the word, and `t`, its remainder. -/
theorem evWordDecodesByOpAndT : Obligations.EvWordDecodesByOpAndT := by
  intro sw w cfg op t r
  have hop : (evOfBits sw w cfg).op.toNat = op := evOfBits_op_toNat sw w cfg
  have ht : (evOfBits sw w cfg).t = t := evOfBits_t sw w cfg
  have hdecode {k : Nat} (h : op = k) : (evOfBits sw w cfg).op.toNat = k := hop.trans h
  refine ⟨fun h => ?_, fun h => ?_, fun h => ?_, fun h => ?_, fun h => ?_, fun h => ?_, fun h => ?_⟩
  · simp only [r, decodeEv, hdecode h, ht]
  · simp only [r, decodeEv, hdecode h, ht]
  · simp only [r, decodeEv, hdecode h, ht]
  · simp only [r, decodeEv, hdecode h]
  · simp only [r, decodeEv, hdecode h, evOfBits_cfg]
  · simp only [r, decodeEv, hdecode h]
  · exact decodeEv_reserved (hop ▸ h)

/-- Settles O3: twelve fixed words, which the decoder evaluates. -/
theorem writtenOutWordsDecode : Obligations.WrittenOutWordsDecode :=
  ⟨rfl, rfl, rfl, rfl, rfl, rfl, rfl, rfl, rfl, rfl, rfl, rfl⟩

/-! ## The CFGIN word (R74, R27) -/

/-- A number is a positive rate unless it is 0. -/
theorem posRatOfNat_cases (n : Nat) :
    (n = 0 ∧ posRatOfNat n = none) ∨ (n ≠ 0 ∧ ∃ q, posRatOfNat n = some q ∧ q.val = (n : ℚ)) := by
  cases n with
  | zero => exact .inl ⟨rfl, rfl⟩
  | succ n => exact .inr ⟨Nat.succ_ne_zero n, _, rfl, rfl⟩

/-- The top bit of the word is the number above its two rates. -/
theorem srValid_eq_decide {n : Nat} (w : BitVec (1 + n + n)) :
    w.getLsbD (n + n) = decide (w.toNat / 2 ^ (n + n) = 1) := by
  have hw : w.toNat < 2 ^ 1 * 2 ^ (n + n) := by
    rw [← pow_add, ← Nat.add_assoc]
    exact w.isLt
  have hlt : w.toNat / 2 ^ (n + n) < 2 := (Nat.div_lt_iff_lt_mul (Nat.two_pow_pos _)).2 hw
  rw [BitVec.getLsbD, Nat.testBit_eq_decide_div_mod_eq, Nat.mod_eq_of_lt hlt]

/-- All a CFGIN word can be: no word where a rate that is read is 0, else the fields, with `sample_rate` the
number in its field where it is read. -/
theorem cfgOfBits_cases {n : Nat} {w : BitVec (1 + n + n)} {valid : Bool} {sr br : Nat}
    (hvalid : w.getLsbD (n + n) = valid) (hsr : w.toNat / 2 ^ n % 2 ^ n = sr) (hbr : w.toNat % 2 ^ n = br) :
    (cfgOfBits n w = none ∧ (br = 0 ∨ (valid = true ∧ sr = 0))) ∨
    (∃ c, cfgOfBits n w = some c ∧ br ≠ 0 ∧ c.bitRate.val = (br : ℚ) ∧ c.srValid = valid ∧
      (valid = true → sr ≠ 0 ∧ c.sampleRate.val = (sr : ℚ))) := by
  have hbrField : (w.setWidth n).toNat = br := (BitVec.toNat_setWidth n w).trans hbr
  have hsrField : (w.extractLsb' n n).toNat = sr := by
    rw [BitVec.extractLsb'_toNat, Nat.shiftRight_eq_div_pow, hsr]
  simp only [cfgOfBits, hbrField, hsrField, hvalid]
  obtain ⟨hbr0, ebr⟩ | ⟨hbr0, qbr, ebr, hbrval⟩ := posRatOfNat_cases br
  · exact .inl ⟨by rw [ebr], .inl hbr0⟩
  obtain ⟨hsr0, esr⟩ | ⟨hsr0, qsr, esr, hsrval⟩ := posRatOfNat_cases sr
  · rw [ebr, esr]
    cases valid with
    | true => exact .inl ⟨rfl, .inr ⟨rfl, hsr0⟩⟩
    | false => exact .inr ⟨_, rfl, hbr0, hbrval, rfl, nofun⟩
  · rw [ebr, esr]
    exact .inr ⟨_, rfl, hbr0, hbrval, rfl, fun _ => ⟨hsr0, hsrval⟩⟩

/-- Settles O4: each case of the word decides both sides, and `sr_valid` decides whether START has a rate. -/
theorem cfgWordCarriesPositiveRates : Obligations.CfgWordCarriesPositiveRates := by
  intro rw w valid sr br
  obtain ⟨hnone, hzero⟩ | ⟨c, hsome, hbr, hbrval, hsrValid, hsr⟩ :=
    cfgOfBits_cases (sr := sr) (br := br) (srValid_eq_decide w) rfl rfl
  · rw [decide_eq_true_iff] at hzero
    exact ⟨iff_of_true hnone hzero, fun c hc => nomatch hnone.symm.trans hc⟩
  · rw [decide_eq_true_iff] at hsr
    refine ⟨iff_of_false (by simp [hsome]) ?_, fun c' hc => ?_⟩
    · rintro (h | ⟨hv, h⟩)
      · exact hbr h
      · exact (hsr hv).1 h
    · obtain rfl := Option.some.inj (hsome.symm.trans hc)
      refine ⟨hbrval, fun hv => ?_, fun hv => ⟨c.sampleRate, ?_, (hsr hv).2⟩⟩
      · rw [CfgIn.toCfg, hsrValid]
        exact if_neg (by simp [valid, hv])
      · rw [CfgIn.toCfg, hsrValid]
        exact if_pos (by simp [valid, hv])

end Sys2Proof

namespace Sys2Proof.Machine

/-! ## The ANN record (R76 to R81) -/

/-- The word with `x` on top of `y` as a number. -/
theorem toNat_append_eq_add {m n : Nat} (x : BitVec m) (y : BitVec n) :
    (x ++ y).toNat = x.toNat * 2 ^ n + y.toNat := by
  rw [BitVec.toNat_append, ← Nat.shiftLeft_add_eq_or_of_lt y.isLt, Nat.shiftLeft_eq]

/-- A position that fits its field is the number in it. -/
theorem toNat_ofInt_of_portFits {sw : Nat} {q : Position} (h : portFits sw q = true) :
    ((BitVec.ofInt sw ⌊q⌋).toNat : Int) = ⌊q⌋ := by
  obtain ⟨hnonneg, hlt⟩ := (portFits_iff sw q).1 h
  have hmod : ⌊q⌋ % ((2 ^ sw : Nat) : Int) = ⌊q⌋ := Int.emod_eq_of_lt hnonneg (by exact_mod_cast hlt)
  rw [BitVec.toNat_ofInt, hmod, Int.toNat_of_nonneg hnonneg]

/-- The record of an annotation whose positions fit, as a number (R76). -/
theorem annWord_toNat {sw : Nat} {a : Annotation} (hs : portFits sw a.startPos = true)
    (he : portFits sw a.endPos = true) :
    ∃ v, annWord sw a = some v ∧
      (v.toNat : Int) = (⌊a.startPos⌋ * 2 ^ sw + ⌊a.endPos⌋) * 2 ^ 11
        + (a.cat.code.toNat : Int) * 2 ^ 8 + (a.data.toNat : Int) := by
  refine ⟨_, annWord_of_fits hs he, ?_⟩
  rw [toNat_append_eq_add, toNat_append_eq_add, toNat_append_eq_add]
  push_cast
  rw [toNat_ofInt_of_portFits hs, toNat_ofInt_of_portFits he]
  ring

theorem Category.row_eq_byte_iff (c : Category) : c.row = .byte ↔ c = .byte := by
  cases c <;> decide

theorem Category.row_eq_ascii_iff (c : Category) : c.row = .ascii ↔ c = .char := by
  cases c <;> decide

theorem Category.row_eq_rawTiming_iff (c : Category) :
    c.row = .rawTiming ↔ c = .bit ∨ c = .brk ∨ c = .breakRecovery ∨ c = .wait ∨ c = .stop := by
  cases c <;> decide

/-- Settles O5: the codes and rows are the tables, and a record is made of fields that hold their floors. -/
theorem annWordHoldsFlooredFields : Obligations.AnnWordHoldsFlooredFields := by
  refine ⟨rfl, rfl, rfl, rfl, rfl, rfl, rfl, Category.row_eq_byte_iff, Category.row_eq_ascii_iff,
    Category.row_eq_rawTiming_iff, fun sw a => ⟨?_, fun v hv => ?_⟩⟩
  · rw [annWord_eq_none_iff, portFits_iff, portFits_iff, and_assoc]
  · obtain ⟨hs, he⟩ : portFits sw a.startPos = true ∧ portFits sw a.endPos = true := by
      by_contra hnot
      exact nomatch hv.symm.trans ((annWord_eq_none_iff sw a).2 hnot)
    obtain ⟨v', hv', hval⟩ := annWord_toNat hs he
    obtain rfl := Option.some.inj (hv'.symm.trans hv)
    exact hval

/-! ## The fault and status ports (R70, R86) -/

theorem fltOf_of_configFault {s : State} (h : s.phase = .configFault) :
    fltOf s = { fault := true, code := 1#2 } := if_pos h

theorem fltOf_of_ne_configFault {s : State} (h : s.phase ≠ .configFault) :
    fltOf s = { fault := false, code := 0#2 } := if_neg h

theorem Phase.code_toNat_lt (p : Phase) : p.code.toNat < 6 := by
  cases p <;> decide

/-- The code loses nothing of the phase. -/
theorem Phase.code_inj {p q : Phase} : p.code = q.code ↔ p = q := by
  cases p <;> cases q <;> decide

/-- Settles O17: the fault port by whether the phase is `ConfigFault`, the status port by the phase's code. -/
theorem faultAndStatusPortsFollowPhase : Obligations.FaultAndStatusPortsFollowPhase := by
  have hstatus {s : State} {p : Phase} (h : s.phase = p) : statusOf s = p.code := congrArg Phase.code h
  refine ⟨fun s => ?_, fun s => ⟨hstatus, hstatus, hstatus, hstatus, hstatus, hstatus⟩,
    fun s => s.phase.code_toNat_lt, fun s t => Phase.code_inj⟩
  by_cases h : s.phase = .configFault
  · simp [fltOf_of_configFault h, h]
  · simp [fltOf_of_ne_configFault h, h]

/-! ## Well-formed traces (R84, R157, R158) -/

/-- An operation that the phase table accepts arrives on the `ev` port and runs, and the phase is then the
table's entry (R157). -/
theorem exec_of_phaseTable {i : Instr} {s : State} {p : Phase} (h : phaseTable s.phase i = some p) :
    i.onEvPort = true ∧ ∃ t, exec i s = .next t ∧ t.phase = p := by
  unfold phaseTable at h
  split at h
  -- RESET, START.
  · exact ⟨rfl, _, rfl, Option.some.inj h⟩
  · next c hp =>
    refine ⟨rfl, _, acceptIn_of_mem (by simp [hp]) _, ?_⟩
    rw [← Option.some.inj h]
    cases c.sampleRate <;> rfl
  -- HIGH, FALL, RISE.
  · next hp => exact ⟨rfl, _, acceptIn_of_mem (by simp [hp]) _, Option.some.inj h⟩
  · next hp => exact ⟨rfl, _, acceptIn_of_mem (by simp [hp]) _, Option.some.inj h⟩
  · next hp =>
    exact ⟨rfl, _, acceptIn_of_mem (by simp [hp]) _, (dispatchSymbol_phase _ _ _).trans (Option.some.inj h)⟩
  -- END in each of the three waits.
  · next hp => exact ⟨rfl, _, acceptIn_of_mem (by simp [hp]) _, Option.some.inj h⟩
  · next hp => exact ⟨rfl, _, acceptIn_of_mem (by simp [hp]) _, Option.some.inj h⟩
  · next hp => exact ⟨rfl, _, acceptIn_of_mem (by simp [hp]) _, Option.some.inj h⟩
  · exact nomatch h

/-- The phases in which a trace stands at a stage: before its first RESET, in any. -/
def TraceStage.standsIn : TraceStage → Phase → Prop
  | .reset,   _ => True
  | .start,   p => p = .idle
  | .high,    p => p = .sync
  | .fall _,  p => p = .waitFall
  | .rise _,  p => p = .waitRise
  | .ended,   p => p = .done
  | .faulted, p => p = .configFault

@[simp] theorem phaseTable_reset (ph : Phase) : phaseTable ph .reset = some .idle := by
  cases ph <;> rfl

/-- A trace that may stop here stands where END or ConfigurationError has led. -/
theorem done_or_configFault_of_traceFrom_nil {st : TraceStage} {ph : Phase} (h : traceFrom st [] = true)
    (hph : st.standsIn ph) : ph = .done ∨ ph = .configFault := by
  cases st with
  | ended => exact .inl hph
  | faulted => exact .inr hph
  | _ => exact nomatch h

/-- The first word of a well-formed rest is one the phase table accepts, and what follows it is a well-formed
rest for the phase it leads to, or nothing after a last RESET. -/
theorem phaseTable_of_traceFrom_cons {st : TraceStage} {i : Instr} {r : List Instr} {ph : Phase}
    (h : traceFrom st (i :: r) = true) (hph : st.standsIn ph) :
    ∃ p, phaseTable ph i = some p ∧
      ((r = [] ∧ p = .idle) ∨ ∃ st', traceFrom st' r = true ∧ st'.standsIn p) := by
  unfold traceFrom at h
  split at h
  -- The first RESET, and START with or without a sample rate.
  · next e => cases e; exact ⟨_, phaseTable_reset ph, .inr ⟨_, h, rfl⟩⟩
  · next c _ e =>
    cases e; cases hph
    refine ⟨_, rfl, .inr ⟨_, h, ?_⟩⟩
    cases c.sampleRate <;> rfl
  -- HIGH, FALL, RISE: the two edges also have an index that is large enough.
  · next e => cases e; cases hph; exact ⟨_, rfl, .inr ⟨_, h, rfl⟩⟩
  · next e => cases e; cases hph; exact ⟨_, rfl, .inr ⟨_, (Bool.and_eq_true_iff.1 h).2, rfl⟩⟩
  · next e => cases e; cases hph; exact ⟨_, rfl, .inr ⟨_, (Bool.and_eq_true_iff.1 h).2, rfl⟩⟩
  -- END in each of the three waits.
  · next e => cases e; cases hph; exact ⟨_, rfl, .inr ⟨_, h, rfl⟩⟩
  · next e => cases e; cases hph; exact ⟨_, rfl, .inr ⟨_, h, rfl⟩⟩
  · next e => cases e; cases hph; exact ⟨_, rfl, .inr ⟨_, h, rfl⟩⟩
  -- The rests without a word.
  · next e => exact nomatch e
  · next e => exact nomatch e
  -- RESET after a START without a sample rate, and a word that is not well formed at its stage.
  · next e =>
    cases e
    obtain hnil | hrest := Bool.or_eq_true_iff.1 h
    · exact ⟨_, phaseTable_reset ph, .inl ⟨List.isEmpty_iff.1 hnil, rfl⟩⟩
    · exact ⟨_, phaseTable_reset ph, .inr ⟨_, hrest, rfl⟩⟩
  · exact nomatch h

/-- A well-formed rest runs from every state in a phase of its stage, and no word is left. -/
theorem runTrace_of_traceFrom {st : TraceStage} {tr : List Instr} {s : State} (h : traceFrom st tr = true)
    (hst : st.standsIn s.phase) :
    ∃ t, runTrace tr s = .next t ∧ t.inputs = [] ∧ t.sym = none ∧
      (t.phase = .done ∨ t.phase = .configFault ∨ t.phase = .idle) := by
  induction tr generalizing st s with
  | nil =>
    have hend := done_or_configFault_of_traceFrom_nil h hst
    exact ⟨_, runTrace_nil s, rfl, rfl, hend.imp_right .inl⟩
  | cons i r ih =>
    obtain ⟨p, hp, hnext⟩ := phaseTable_of_traceFrom_cons h hst
    obtain ⟨hi, t, hexec, ht⟩ := exec_of_phaseTable (s := deliver r s) hp
    rw [runTrace_cons hi hexec]
    obtain ⟨rfl, rfl⟩ | ⟨st', hr, hst'⟩ := hnext
    · exact ⟨_, runTrace_nil t, rfl, rfl, .inr (.inr ht)⟩
    · exact ih hr (ht ▸ hst')

/-- Settles O43: a trace begins at RESET, which every phase accepts. -/
theorem wellFormedTraceRuns : Obligations.WellFormedTraceRuns :=
  fun _ _ h => runTrace_of_traceFrom h trivial

end Sys2Proof.Machine
end

section
/-! Proofs of the statements about the timing classifier (40_timing_classifier.md): CLASSIFY and its boundaries
(R102, R103), its integer form (R104), the widths no source delivers (R105), and the table of R109. -/

namespace Sys2Proof.Machine

/-! ## The thresholds (R28, R100) -/

theorem halfBitWidth_eq (w : ℚ) : halfBitWidth w = w / 2 := by
  rw [halfBitWidth, kHalf_eq]; ring

theorem breakThreshold_eq (w : ℚ) : breakThreshold w = w * (6 / 5) := by
  rw [breakThreshold, kBreak_eq]; ring

theorem halfBitWidth_pos {w : ℚ} (hw : 0 < w) : 0 < halfBitWidth w := by
  rw [halfBitWidth_eq]; exact half_pos hw

theorem halfBitWidth_lt_breakThreshold {w : ℚ} (hw : 0 < w) : halfBitWidth w < breakThreshold w := by
  rw [halfBitWidth_eq, breakThreshold_eq]; linarith

/-! ## The class of a width (R102): one equivalence per symbol -/

section
variable {w : ℚ} {st : SampleIndex} {d : Int}

theorem classify_eq_brk_iff : classify w st d = .brk st ↔ breakThreshold w < (d : ℚ) := by
  unfold classify
  split_ifs with hbrk hhalf
  · simp [hbrk]
  · simp [hbrk]
  · simp [hbrk]

theorem classify_eq_bit0_iff :
    classify w st d = .bit false st d ↔ halfBitWidth w < (d : ℚ) ∧ (d : ℚ) ≤ breakThreshold w := by
  rw [← not_lt (a := breakThreshold w)]
  unfold classify
  split_ifs with hbrk hhalf
  · simp [hbrk]
  · simp [hbrk, hhalf]
  · simp [hhalf]

/-- Where the bit width is positive, a width up to the half bit width is below the break threshold too. -/
theorem classify_eq_bit1_iff (hw : 0 < w) :
    classify w st d = .bit true st d ↔ (d : ℚ) ≤ halfBitWidth w := by
  have hlt := halfBitWidth_lt_breakThreshold hw
  rw [← not_lt]
  unfold classify
  split_ifs with hbrk hhalf
  · simp [hlt.trans hbrk]
  · simp [hhalf]
  · simp [hhalf]

end

theorem classify_cases (w : ℚ) (st : SampleIndex) (d : Int) :
    classify w st d = .brk st ∨ classify w st d = .bit false st d ∨ classify w st d = .bit true st d := by
  unfold classify
  split_ifs with hbrk hhalf
  · exact .inl rfl
  · exact .inr (.inl rfl)
  · exact .inr (.inr rfl)

/-- Settles O25: the class conditions with the thresholds written out; at equality the strict comparison fails. -/
theorem classifyByStrictThresholds : Obligations.ClassifyByStrictThresholds := by
  intro w st d hw
  have hlt := halfBitWidth_lt_breakThreshold hw
  rw [← halfBitWidth_eq, ← breakThreshold_eq]
  refine ⟨classify_eq_brk_iff, classify_eq_bit0_iff, classify_eq_bit1_iff hw, fun hd => ?_, fun hd => ?_⟩
  · exact classify_eq_bit0_iff.2 ⟨hd ▸ hlt, hd.le⟩
  · exact (classify_eq_bit1_iff hw).2 hd.le

/-! ## Without division, and against integer constants (R104) -/

section
variable (sr br : PosRat) (d : Int)

theorem breakThreshold_div_lt_iff :
    breakThreshold (sr.val / br.val) < (d : ℚ) ↔ 6 * sr.val < 5 * (d : ℚ) * br.val := by
  rw [breakThreshold_eq, div_mul_eq_mul_div, div_lt_iff₀ br.property]
  constructor
  · intro h; linarith
  · intro h; linarith

theorem halfBitWidth_div_lt_iff :
    halfBitWidth (sr.val / br.val) < (d : ℚ) ↔ sr.val < 2 * (d : ℚ) * br.val := by
  rw [halfBitWidth_eq, div_right_comm, div_lt_iff₀ br.property]
  constructor
  · intro h; linarith
  · intro h; linarith

end

/-- Settles O26: the class conditions, each comparison multiplied by the positive bit rate; an integer is above
a threshold exactly when it is above the threshold's floor. -/
theorem classifyInIntegerForm : Obligations.ClassifyInIntegerForm := by
  intro sr br st d w
  have hw : 0 < w := bitWidthOf_pos _
  rw [← breakThreshold_div_lt_iff, ← halfBitWidth_div_lt_iff, not_lt, not_lt]
  exact ⟨classify_eq_brk_iff, classify_eq_bit0_iff.trans and_comm, classify_eq_bit1_iff hw,
    Int.floor_lt.symm, Int.floor_lt.symm⟩

/-! ## The widths no source delivers, and the shortest pulse (R105) -/

/-- Settles O27: the half bit width is positive, and at least one sample once there are two samples a bit. -/
theorem noPulseIsUnclassifiable : Obligations.NoPulseIsUnclassifiable := by
  intro cfg st d
  have hw := bitWidthOf_pos cfg
  refine ⟨fun hd => ?_, fun h2 => ?_, classify_cases _ st d⟩
  · have hd' : (d : ℚ) ≤ 0 := Int.cast_nonpos.2 hd
    exact (classify_eq_bit1_iff hw).2 (hd'.trans (halfBitWidth_pos hw).le)
  · rw [classify_eq_bit1_iff hw, halfBitWidth_eq, Int.cast_one]
    linarith

/-! ## The boundaries as integers (R109) -/

/-- The floors of the two thresholds are the greatest widths of a Bit(1) and of a Bit(0). -/
theorem classify_iff_of_floor {w : ℚ} {a b : Int} (hw : 0 < w) (ha : ⌊w / 2⌋ = a) (hb : ⌊w * (6 / 5)⌋ = b)
    (st : SampleIndex) (d : Int) :
    (classify w st d = .bit true st d ↔ d ≤ a) ∧
    (classify w st d = .bit false st d ↔ a < d ∧ d ≤ b) ∧
    (classify w st d = .brk st ↔ b < d) := by
  rw [← ha, ← hb, ← halfBitWidth_eq, ← breakThreshold_eq, Int.le_floor, Int.le_floor, Int.floor_lt, Int.floor_lt]
  exact ⟨classify_eq_bit1_iff hw, classify_eq_bit0_iff, classify_eq_brk_iff⟩

/-- Settles O28: the floors of the two thresholds of each configuration. -/
theorem boundariesOfFourConfigurations : Obligations.BoundariesOfFourConfigurations := by
  intro st d bounds
  refine ⟨?_, ?_, ?_, ?_⟩
  · exact classify_iff_of_floor (by norm_num) (by norm_num) (by norm_num) st d
  · exact classify_iff_of_floor (by norm_num) (by norm_num) (by norm_num) st d
  · exact classify_iff_of_floor (by norm_num) (by norm_num) (by norm_num) st d
  · exact classify_iff_of_floor (by norm_num) (by norm_num) (by norm_num) st d

end Sys2Proof.Machine
end

section
/-! Proofs of the statements about the symbol assembler (41_symbol_assembler.md): BIT0 and BIT1 (R121 to R124),
BREAK (R126, R128), what each operation emits (R129, R130), where a pulse's annotations lie (R133), and the
counting law of a run (95_test_vectors.md Q7). -/

namespace Sys2Proof.Machine

/-! ## What a symbol emits, in order (R129) -/

/-- The categories that a bit emits where `n` bits are held. -/
def bitCategories (n : Nat) : List Category := if n = 7 then [.bit, .byte, .char, .stop] else [.bit]

/-- The categories that a break emits under the break count `c`. -/
def breakCategories (c : BreakCount) : List Category :=
  if c = .two then [.brk, .breakRecovery, .wait] else [.brk, .breakRecovery]

theorem count_bitCategories_bit (n : Nat) : (bitCategories n).count .bit = 1 := by
  unfold bitCategories
  split_ifs <;> rfl

theorem count_bitCategories_of_break {a : Category} (ha : a ∈ [Category.brk, .breakRecovery, .wait]) (n : Nat) :
    (bitCategories n).count a = 0 := by
  unfold bitCategories
  split_ifs
  · revert a; decide
  · revert a; decide

theorem count_bitCategories_of_byte {a : Category} (ha : a ∈ [Category.byte, .char, .stop]) (n : Nat) :
    (bitCategories n).count a = if n = 7 then 1 else 0 := by
  unfold bitCategories
  split_ifs
  · revert a; decide
  · revert a; decide

theorem count_breakCategories_of_bit {a : Category} (ha : a ∈ [Category.bit, .byte, .char, .stop])
    (c : BreakCount) : (breakCategories c).count a = 0 := by
  cases c with
  | one => revert a; decide
  | two => revert a; decide

theorem count_breakCategories_of_break {a : Category} (ha : a ∈ [Category.brk, .breakRecovery])
    (c : BreakCount) : (breakCategories c).count a = 1 := by
  cases c with
  | one => revert a; decide
  | two => revert a; decide

theorem countCat_eq_count (c : Category) (anns : List Annotation) :
    countCat c anns = (anns.map Annotation.cat).count c := by
  rw [countCat, List.count_eq_countP, List.countP_map]
  congr

section
variable (b : Bool) (now : SampleIndex) (s : State)

theorem assembleBit_ann :
    ∃ new, (assembleBit b s).ann = s.ann ++ new ∧ new.map Annotation.cat = bitCategories s.currentBits.length := by
  by_cases h : s.currentBits.length = 7
  · exact ⟨_, by rw [assembleBit_full b h], by rw [bitCategories, if_pos h]; rfl⟩
  · exact ⟨_, by rw [assembleBit_short b h], by rw [bitCategories, if_neg h]; rfl⟩

theorem assembleBreak_ann :
    ∃ new, (assembleBreak now s).ann = s.ann ++ new ∧ new.map Annotation.cat = breakCategories s.breakCount := by
  cases h : s.breakCount with
  | one => exact ⟨_, by rw [assembleBreak_one now h], rfl⟩
  | two => exact ⟨_, by rw [assembleBreak_two now h], rfl⟩

/-- The symbol of a pulse emits what its class asks for: the break threshold alone decides between the two. -/
theorem dispatchSymbol_classify_ann (w : ℚ) (f r : SampleIndex) :
    ∃ new, (dispatchSymbol (classify w f (pulseWidth f r)) now s).ann = s.ann ++ new ∧
      new.map Annotation.cat =
        if breakThreshold w < (pulseWidth f r : ℚ) then breakCategories s.breakCount
        else bitCategories s.currentBits.length := by
  cases hb : isBreakPulse w (f, r) with
  | true =>
    rw [classify_of_break hb, if_pos (of_decide_eq_true hb)]
    exact assembleBreak_ann now s
  | false =>
    rw [classify_of_not_break hb, if_neg (of_decide_eq_false hb)]
    exact assembleBit_ann _ s

/-- Up to seven bits held, a bit counts on, and the eighth starts again from none (R121, R124). -/
theorem assembleBit_currentBits_length (h : s.currentBits.length < 8) :
    (assembleBit b s).currentBits.length = (s.currentBits.length + 1) % 8 := by
  by_cases h7 : s.currentBits.length = 7
  · rw [assembleBit_full b h7, h7]
    rfl
  · rw [assembleBit_short b h7, List.length_append, List.length_singleton]
    omega

end

/-! ## BIT0 and BIT1 (R121 to R124) -/

/-- Settles O31: both are the append of their bit. -/
theorem bitBelowEightIsAppended : Obligations.BitBelowEightIsAppended :=
  fun _ _ _ hlen =>
    ⟨congrArg Host.Outcome.next (assembleBit_short false hlen),
      congrArg Host.Outcome.next (assembleBit_short true hlen)⟩

/-- Settles O32: both complete the byte; the Stop is 13/10 of a bit width long from 3/10 on. -/
theorem eighthBitCompletesTheByte : Obligations.EighthBitCompletesTheByte := by
  intro s st d hlen w c after
  have hstop : c + 16 / 10 * w = c + 3 / 10 * w + 13 / 10 * w := by ring
  have hafter (b : Bool) : assembleBit b s = after b (bitData b) := by
    simp only [after, hstop]
    exact assembleBit_full b hlen
  exact ⟨congrArg Host.Outcome.next (hafter false), congrArg Host.Outcome.next (hafter true)⟩

/-! ## BREAK (R126, R128) -/

/-- Settles O33, by the break of the pair. -/
theorem breakAbortsTheByteAndPairs : Obligations.BreakAbortsTheByteAndPairs :=
  fun _ _ now =>
    ⟨fun hone => congrArg Host.Outcome.next (assembleBreak_one now hone),
      fun htwo => congrArg Host.Outcome.next (assembleBreak_two now htwo), fun _ => rfl⟩

theorem assembleBit_currentBits_of_nil (b : Bool) {s : State} (h : s.currentBits = []) :
    (assembleBit b s).currentBits = [b] := by
  rw [assembleBit_short b (by simp [h]), h, List.nil_append]

/-- Settles O34: no category of a break is Byte or Char, and a bit after it is appended to no bit. -/
theorem breakDiscardsAPartialByte : Obligations.BreakDiscardsAPartialByte := by
  intro s st now
  obtain ⟨new, hann, hcats⟩ := assembleBreak_ann now s
  obtain ⟨hbits, -, -⟩ := assembleBreak_registers now s
  have hnone {a : Category} (ha : a ∈ [Category.bit, .byte, .char, .stop]) : countCat a new = 0 := by
    rw [countCat_eq_count, hcats, count_breakCategories_of_bit ha]
  exact ⟨_, new, rfl, hbits, hann, hnone (by decide), hnone (by decide), fun st' d =>
    ⟨⟨_, rfl, assembleBit_currentBits_of_nil false hbits⟩,
      ⟨_, rfl, assembleBit_currentBits_of_nil true hbits⟩⟩⟩

/-! ## What every operation emits, and which can raise ConfigurationError (R129, R130) -/

/-- Settles O35, by the operation that ran: a symbol operation emits its categories, RISE those of its pulse's
class, and the others nothing. -/
theorem annotationsPerOperation : Obligations.AnnotationsPerOperation := by
  intro i s t h
  have hnone : s.ann = s.ann ++ [] := (List.append_nil _).symm
  obtain ⟨_, rfl, -, rfl⟩ | ⟨_, rfl, -, rfl⟩ | ⟨n, rfl, -, rfl⟩ | ⟨rfl, -, rfl⟩ | ⟨_, _, rfl, -, -, rfl⟩ |
    ⟨_, rfl, -, -, rfl⟩ | ⟨rfl, rfl⟩ | ⟨_, _, rfl, rfl⟩ | ⟨_, _, rfl, rfl⟩ | ⟨_, now, rfl, rfl⟩ := exec_cases h
  · exact ⟨[], hnone, rfl⟩
  · exact ⟨[], hnone, rfl⟩
  · exact dispatchSymbol_classify_ann n { s with phase := .waitFall } (bitWidth s) s.fallSample n
  · exact ⟨[], hnone, rfl⟩
  · exact ⟨[], hnone, rfl⟩
  · exact ⟨[], hnone, rfl⟩
  · exact ⟨[], hnone, rfl⟩
  · exact assembleBit_ann false s
  · exact assembleBit_ann true s
  · exact assembleBreak_ann now s

theorem assembleBit_ann_length_lt (b : Bool) (s : State) : s.ann.length < (assembleBit b s).ann.length := by
  by_cases h : s.currentBits.length = 7
  · simp [assembleBit_full b h]
  · simp [assembleBit_short b h]

theorem assembleBreak_ann_length_lt (now : SampleIndex) (s : State) :
    s.ann.length < (assembleBreak now s).ann.length := by
  cases h : s.breakCount with
  | one => simp [assembleBreak_one now h]
  | two => simp [assembleBreak_two now h]

/-- The outcome is ConfigurationError only for a step that enters `ConfigFault` (R182). -/
theorem next_of_specOutcome_eq_configurationError {s t : State} {o : Host.Outcome State Fault Refusal}
    (h : specOutcome s o = .configurationError t) :
    o = .next t ∧ s.phase ≠ .configFault ∧ t.phase = .configFault := by
  cases o with
  | next u =>
    simp only [specOutcome] at h
    split_ifs at h with hp
    cases h
    exact ⟨rfl, hp⟩
  | fault r => exact nomatch r
  | refused r => exact nomatch h

/-- START alone enters `ConfigFault`: every other operation names another phase or keeps the one there is. -/
theorem eq_start_of_exec_into_configFault {i : Instr} {s t : State} (h : exec i s = .next t)
    (hs : s.phase ≠ .configFault) (ht : t.phase = .configFault) : ∃ c, i = .start c := by
  obtain ⟨_, -, -, rfl⟩ | ⟨_, -, -, rfl⟩ | ⟨n, -, -, rfl⟩ | ⟨-, -, rfl⟩ | ⟨c, _, hi, -, -, -⟩ |
    ⟨c, hi, -, -, -⟩ | ⟨-, rfl⟩ | ⟨_, _, -, rfl⟩ | ⟨_, _, -, rfl⟩ | ⟨_, now, -, rfl⟩ := exec_cases h
  · exact nomatch ht
  · exact nomatch ht
  · exact nomatch (dispatchSymbol_phase _ n _).symm.trans ht
  · exact nomatch ht
  · exact ⟨c, hi⟩
  · exact ⟨c, hi⟩
  · exact nomatch ht
  · exact absurd ((assembleBit_phase false s).symm.trans ht) hs
  · exact absurd ((assembleBit_phase true s).symm.trans ht) hs
  · exact absurd ((assembleBreak_phase now s).symm.trans ht) hs

/-- Settles O36: a symbol operation always emits something, and START alone enters `ConfigFault`. -/
theorem assemblerNeverFails : Obligations.AssemblerNeverFails := by
  refine ⟨fun s st now d => ⟨⟨_, rfl, assembleBit_ann_length_lt false s⟩,
    ⟨_, rfl, assembleBit_ann_length_lt true s⟩, ⟨_, rfl, assembleBreak_ann_length_lt now s⟩⟩, fun i s t h => ?_⟩
  obtain ⟨hexec, hs, ht⟩ := next_of_specOutcome_eq_configurationError h
  exact eq_start_of_exec_into_configFault hexec hs ht

/-! ## Where the annotations of a pulse lie (R131, R133) -/

/-- Settles O37: the pulse is its symbol on a state whose cursor is the falling edge, so each class has its
annotations from there. -/
theorem pulseAnnotationGeometry : Obligations.PulseAnnotationGeometry := by
  intro s f r hp w b start bitAnn value
  have hrun := (runTrace_pulse hp f r []).trans (runTrace_nil _)
  refine ⟨_, hrun, dispatchSymbol_phase _ r _, dispatchSymbol_fallSample _ r _, fun hb hlen => ?_,
    fun hb hlen => ?_, fun hb => ?_⟩
  · rw [deliver_ann, classify_of_not_break hb, dispatchSymbol_bit,
      assembleBit_short b (s := afterFall f (deliver [] s)) hlen]
    rfl
  · have hstop : (f : ℚ) + 8 / 5 * w = f + 3 / 10 * w + 13 / 10 * w := by ring
    have hstart : start = ((if s.byteStartSample = 0 then f else s.byteStartSample : SampleIndex) : ℚ) :=
      (Nat.cast_ite ..).symm
    rw [deliver_ann, classify_of_not_break hb, dispatchSymbol_bit,
      assembleBit_full b (s := afterFall f (deliver [] s)) hlen, hstop, hstart]
    rfl
  · rw [deliver_ann, classify_of_break hb, dispatchSymbol_brk]
    cases hc : s.breakCount with
    | one =>
      rw [assembleBreak_one r (s := afterFall f (deliver [] s)) hc]
      exact (List.append_nil _).symm
    | two =>
      rw [assembleBreak_two r (s := afterFall f (deliver [] s)) hc, List.append_assoc]
      rfl

/-! ## The counting law (Q4, Q7) -/

/-- How many breaks of the current pair have been taken (R23). -/
def BreakCount.taken : BreakCount → Nat
  | .one => 0
  | .two => 1

theorem BreakCount.taken_eq_zero_iff (c : BreakCount) : c.taken = 0 ↔ c = .one := by
  cases c <;> simp [BreakCount.taken]

/-- A break is the first of its pair or completes it (R126). -/
theorem assembleBreak_taken (now : SampleIndex) (s : State) :
    s.breakCount.taken + (assembleBreak now s).breakCount.taken = 1 := by
  cases h : s.breakCount with
  | one => rw [assembleBreak_one now h]; rfl
  | two => rw [assembleBreak_two now h]; rfl

theorem count_breakCategories_wait (c : BreakCount) : (breakCategories c).count .wait = c.taken := by
  cases c <;> rfl

/-- `new` is what the pulses `ps` emit and `t` the state they lead to, after `m` bits of the current segment and
under the break count `c`. -/
structure PulsesCount (w : ℚ) (ps : List (SampleIndex × SampleIndex)) (m : Nat) (c : BreakCount)
    (new : List Annotation) (t : State) : Prop where
  bits      : m + countCat .bit new = (segmentLengths w ps m).sum
  bytes     : ∀ a ∈ [Category.byte, .char, .stop],
                m / 8 + countCat a new = ((segmentLengths w ps m).map (· / 8)).sum
  breaks    : ∀ a ∈ [Category.brk, .breakRecovery], countCat a new = ps.countP (isBreakPulse w)
  waits     : countCat .wait new = (c.taken + ps.countP (isBreakPulse w)) / 2
  bitsHeld  : ∀ d, t.currentBits.length = (segmentLengths w ps m).getLastD d % 8
  breakHeld : t.breakCount.taken = (c.taken + ps.countP (isBreakPulse w)) % 2

section
variable {w : ℚ} {ps : List (SampleIndex × SampleIndex)} {p : SampleIndex × SampleIndex} {m : Nat}
  {c : BreakCount} {new1 new : List Annotation} {t : State}

theorem PulsesCount.nil (h : t.currentBits.length = m % 8) : PulsesCount w [] m t.breakCount [] t where
  bits := by simp [segmentLengths, countCat]
  bytes := by simp [segmentLengths, countCat]
  breaks := by simp [countCat]
  waits := by cases t.breakCount <;> simp [countCat, BreakCount.taken]
  bitsHeld := fun _ => h
  breakHeld := by cases t.breakCount <;> simp [BreakCount.taken]

/-- A bit makes the current segment one longer, and each eighth bit of a segment completes a byte. -/
theorem PulsesCount.cons_bit (h : PulsesCount w ps (m + 1) c new t) (hb : isBreakPulse w p = false)
    (hcats : new1.map Annotation.cat = bitCategories (m % 8)) : PulsesCount w (p :: ps) m c (new1 ++ new) t := by
  have hseg : segmentLengths w (p :: ps) m = segmentLengths w ps (m + 1) := by simp [segmentLengths, hb]
  have hbreaks : (p :: ps).countP (isBreakPulse w) = ps.countP (isBreakPulse w) := by simp [hb]
  have hnew (a : Category) : countCat a (new1 ++ new) = (bitCategories (m % 8)).count a + countCat a new := by
    rw [countCat_append, countCat_eq_count a new1, hcats]
  have hnone {a : Category} (ha : a ∈ [Category.brk, .breakRecovery, .wait]) :
      countCat a (new1 ++ new) = countCat a new := by
    rw [hnew, count_bitCategories_of_break ha, zero_add]
  exact
    { bits := by
        rw [hseg, ← h.bits, hnew, count_bitCategories_bit]
        ring
      bytes := fun a ha => by
        rw [hseg, ← h.bytes a ha, hnew, count_bitCategories_of_byte ha]
        split_ifs with h7
        · omega
        · omega
      breaks := fun a ha => by
        rw [hbreaks, ← h.breaks a ha]
        exact hnone (List.mem_of_mem_dropLast ha)
      waits := by
        rw [hbreaks, ← h.waits]
        exact hnone (by decide)
      bitsHeld := by
        rw [hseg]
        exact h.bitsHeld
      breakHeld := by
        rw [hbreaks]
        exact h.breakHeld }

/-- A break closes the current segment, and the second of a pair emits a Wait. -/
theorem PulsesCount.cons_break {c' : BreakCount} (h : PulsesCount w ps 0 c' new t) (hc : c.taken + c'.taken = 1)
    (hb : isBreakPulse w p = true) (hcats : new1.map Annotation.cat = breakCategories c) :
    PulsesCount w (p :: ps) m c (new1 ++ new) t := by
  have hseg : segmentLengths w (p :: ps) m = m :: segmentLengths w ps 0 := by simp [segmentLengths, hb]
  have hbreaks : (p :: ps).countP (isBreakPulse w) = ps.countP (isBreakPulse w) + 1 := by simp [hb]
  have hnew (a : Category) : countCat a (new1 ++ new) = (breakCategories c).count a + countCat a new := by
    rw [countCat_append, countCat_eq_count a new1, hcats]
  have hnone {a : Category} (ha : a ∈ [Category.bit, .byte, .char, .stop]) :
      countCat a (new1 ++ new) = countCat a new := by
    rw [hnew, count_breakCategories_of_bit ha, zero_add]
  exact
    { bits := by rw [hseg, List.sum_cons, ← h.bits, hnone (by decide), zero_add]
      bytes := fun a ha => by
        rw [hseg, List.map_cons, List.sum_cons, ← h.bytes a ha, hnone (List.mem_cons_of_mem _ ha),
          Nat.zero_div, zero_add]
      breaks := fun a ha => by
        rw [hbreaks, hnew, count_breakCategories_of_break ha, h.breaks a ha, add_comm]
      waits := by
        rw [hbreaks, hnew, count_breakCategories_wait, h.waits]
        omega
      bitsHeld := fun d => by
        rw [hseg, List.getLastD_cons]
        exact h.bitsHeld m
      breakHeld := by
        rw [hbreaks, h.breakHeld]
        omega }

end

/-- Pulses run from every state that waits for a falling edge, and count as their segments say. -/
theorem runTrace_pulseWords {w : ℚ} (ps : List (SampleIndex × SampleIndex)) (rest : List Instr) {u : State}
    {m : Nat} (hphase : u.phase = .waitFall) (hw : bitWidth u = w) (hbits : u.currentBits.length = m % 8) :
    ∃ t new, runTrace (pulseWords ps ++ rest) u = runTrace rest t ∧ t.phase = .waitFall ∧
      t.ann = u.ann ++ new ∧ PulsesCount w ps m u.breakCount new t := by
  induction ps generalizing u m with
  | nil => exact ⟨u, [], rfl, hphase, (List.append_nil _).symm, .nil hbits⟩
  | cons p ps ih =>
    have hrun := runTrace_pulse hphase p.1 p.2 (pulseWords ps ++ rest)
    rw [hw] at hrun
    let u1 := afterFall p.1 (deliver (pulseWords ps ++ rest) u)
    cases hb : isBreakPulse w p with
    | false =>
      rw [classify_of_not_break hb, dispatchSymbol_bit] at hrun
      obtain ⟨new1, hann1, hcats⟩ := assembleBit_ann (pulseBit w p) u1
      have hlen : (assembleBit (pulseBit w p) u1).currentBits.length = (m + 1) % 8 := by
        have hlen1 : u1.currentBits.length = m % 8 := hbits
        rw [assembleBit_currentBits_length _ _ (by omega), hlen1, Nat.mod_add_mod]
      obtain ⟨t, new, hrest, ht, hann, hcount⟩ :=
        ih (assembleBit_phase _ u1) ((bitWidth_congr (assembleBit_cfg _ u1)).trans hw) hlen
      rw [assembleBit_breakCount] at hcount
      exact ⟨t, new1 ++ new, hrun.trans hrest, ht, by rw [hann, hann1, List.append_assoc]; rfl,
        hcount.cons_bit hb (hbits ▸ hcats)⟩
    | true =>
      rw [classify_of_break hb, dispatchSymbol_brk] at hrun
      obtain ⟨new1, hann1, hcats⟩ := assembleBreak_ann p.2 u1
      have hlen : (assembleBreak p.2 u1).currentBits.length = 0 % 8 := by
        rw [(assembleBreak_registers p.2 u1).1]
        rfl
      obtain ⟨t, new, hrest, ht, hann, hcount⟩ :=
        ih (assembleBreak_phase _ u1) ((bitWidth_congr (assembleBreak_cfg _ u1)).trans hw) hlen
      exact ⟨t, new1 ++ new, hrun.trans hrest, ht, by rw [hann, hann1, List.append_assoc]; rfl,
        hcount.cons_break (assembleBreak_taken p.2 u1) hb hcats⟩

section
variable {s : State}

/-- START with a sample rate (R151). -/
theorem exec_start_of_idle (hp : s.phase = .idle) (sr br : PosRat) :
    exec (.start { sampleRate := some sr, bitRate := br }) s =
      .next { s with cfg := some { sampleRate := some sr, bitRate := br }, phase := .sync } :=
  acceptIn_of_mem (by simp [hp]) _

theorem exec_high_of_sync (hp : s.phase = .sync) (h : SampleIndex) :
    exec (.high h) s = .next { s with phase := .waitFall } :=
  acceptIn_of_mem (by simp [hp]) _

theorem exec_endInput_of_waitFall (hp : s.phase = .waitFall) :
    exec .endInput s = .next { s with phase := .done } :=
  acceptIn_of_mem (by simp [hp]) _

end

/-- RESET, START with a sample rate and HIGH run from every state and lead to the wait for a falling edge. -/
theorem runTrace_reset_start_high (s : State) (sr br : PosRat) (h : SampleIndex) (tr : List Instr) :
    runTrace (.reset :: .start { sampleRate := some sr, bitRate := br } :: .high h :: tr) s =
      runTrace tr { resetRegisters s with
        cfg := some { sampleRate := some sr, bitRate := br }, phase := .waitFall } := by
  rw [runTrace_cons rfl rfl, runTrace_cons rfl (exec_start_of_idle rfl sr br),
    runTrace_cons rfl (exec_high_of_sync rfl h)]
  rfl

theorem runTrace_endInput {t : State} (h : t.phase = .waitFall) :
    runTrace [.endInput] t = .next { deliver [] t with phase := .done } :=
  runTrace_cons rfl (exec_endInput_of_waitFall h)

/-- Settles O46: RESET clears the registers, the pulses count as their segments say, and END emits nothing. -/
theorem annotationCountsOfARun : Obligations.AnnotationCountsOfARun := by
  intro s sr br h ps w ms k
  obtain ⟨t, new, hrun, hphase, hann, hcount⟩ := runTrace_pulseWords (w := w) (m := 0) ps [.endInput]
    (u := { resetRegisters s with cfg := some { sampleRate := some sr, bitRate := br }, phase := .waitFall })
    rfl rfl rfl
  have hbytes {a : Category} (ha : a ∈ [Category.byte, .char, .stop]) : countCat a new = (ms.map (· / 8)).sum := by
    rw [← hcount.bytes a ha, Nat.zero_div, zero_add]
  have hbreakHeld : t.breakCount.taken = k % 2 := by
    rw [hcount.breakHeld]
    exact congrArg (· % 2) (zero_add k)
  refine ⟨_, new, (runTrace_reset_start_high s sr br h _).trans (hrun.trans (runTrace_endInput hphase)), hann, rfl,
    ?_, hbytes (by decide), hbytes (by decide), hbytes (by decide), hcount.breaks _ (by decide),
    hcount.breaks _ (by decide), ?_, hcount.bitsHeld 0, ?_⟩
  · rw [← hcount.bits, zero_add]
  · rw [hcount.waits]
    exact congrArg (· / 2) (zero_add k)
  · rw [← hbreakHeld]
    exact t.breakCount.taken_eq_zero_iff.symm

end Sys2Proof.Machine
end

section
/-! Proofs of the statements about the driving loop (42_driving_loop.md): which word a step runs (R159, R161), each
operation of the `ev` port (R151 to R156), and the phase transition table (R157, R158). -/

namespace Sys2Proof.Machine

/-! ## A step by what the fetch and the decoder give (R159, R161) -/

section
variable {s s1 : State} {w : InWord}

theorem step_of_decode_ok {i : Instr} (hf : fetch s = some (w, s1)) (hd : decode w = .ok i) :
    step s = exec i s1 := by
  simp only [step, hf, hd]

theorem step_of_decode_error {e : DecodeError} (hf : fetch s = some (w, s1)) (hd : decode w = .error e) :
    step s = .refused (refusalOf e) := by
  simp only [step, hf, hd]

theorem step_of_fetch_none (hf : fetch s = none) : step s = .next s := by
  simp only [step, hf]

theorem fetch_of_sym {x : SymIn} (h : s.sym = some x) : fetch s = some (.sym x, { s with sym := none }) :=
  fetch_eq_some.2 (.inl ⟨x, h, rfl, rfl⟩)

theorem fetch_of_inputs {x : EvIn} {rest : List EvIn} (hs : s.sym = none) (hin : s.inputs = x :: rest) :
    fetch s = some (.ev x, { s with inputs := rest }) :=
  fetch_eq_some.2 (.inr ⟨x, rest, hs, hin, rfl, rfl⟩)

end

theorem decodeSym_reserved {x : SymIn} (h : x.kind = 3#2) : decodeSym x = .error .reservedKind := by
  rw [decodeSym, h]
  rfl

/-- Settles O6: the fetch gives the word at the SYM interface, else the first input word, and the decoder decides. -/
theorem stepRunsTheDecodedWord : Obligations.StepRunsTheDecodedWord :=
  ⟨fun _ _ _ hsym hdec => step_of_decode_ok (fetch_of_sym hsym) hdec,
    fun _ _ _ _ hsym hin hdec => step_of_decode_ok (fetch_of_inputs hsym hin) hdec,
    fun _ _ _ hsym hin hop => step_of_decode_error (fetch_of_inputs hsym hin) (decodeEv_reserved hop),
    fun _ _ hsym hkind => step_of_decode_error (fetch_of_sym hsym) (decodeSym_reserved hkind),
    fun _ hsym hin => step_of_fetch_none (fetch_eq_none.2 ⟨hsym, hin⟩)⟩

/-! ## RESET and START (R151, R156, R182) -/

/-- Settles O11: the next state is `resetRegisters`, whose phase is not `ConfigFault`. -/
theorem resetSetsEveryRegister : Obligations.ResetSetsEveryRegister :=
  fun s => ⟨resetRegisters s, rfl, rfl, rfl, rfl, rfl, rfl, rfl, rfl, rfl, rfl, rfl,
    fltOf_of_ne_configFault nofun, rfl, rfl, rfl⟩

/-- A step that enters `ConfigFault` has the outcome ConfigurationError (R14, R182). -/
theorem specOutcome_of_enters_configFault {s t : State} (hs : s.phase ≠ .configFault)
    (ht : t.phase = .configFault) : specOutcome s (.next t) = .configurationError t :=
  if_pos ⟨hs, ht⟩

theorem exec_start_of_ne_idle {s : State} (h : s.phase ≠ .idle) (c : Cfg) :
    exec (.start c) s = .refused .wrongPhase :=
  acceptIn_of_not_mem (by simpa using h) _

/-- START without a sample rate (R182). -/
theorem exec_start_absent_of_idle {s : State} (h : s.phase = .idle) (br : PosRat) :
    exec (.start { sampleRate := none, bitRate := br }) s = .next (takeConfigurationError s br) :=
  acceptIn_of_mem (by simp [h]) _

/-- Settles O14, by whether the configuration has a sample rate; without one, `ConfigFault` is entered from `Idle`. -/
theorem startLatchesTheConfiguration : Obligations.StartLatchesTheConfiguration := by
  rintro ⟨rate, br⟩ s
  refine ⟨?_, ?_, fun hp => exec_start_of_ne_idle hp _, ?_, ?_⟩
  · rintro hp sr rfl
    exact exec_start_of_idle hp sr br
  · rintro hp rfl
    have hne : s.phase ≠ .configFault := by simp [hp]
    rw [exec_start_absent_of_idle hp]
    exact ⟨rfl, specOutcome_of_enters_configFault hne rfl⟩
  · rintro n p hp
    exact congrArg (fun c => Except.ok (Instr.start c)) hp
  · exact congrArg (fun c => Except.ok (Instr.start c)) (toCfg_cfgInOf _)

/-! ## HIGH, FALL and END (R152, R153, R155) -/

/-- Settles O20: `Sync` is the one phase that awaits HIGH. -/
theorem highEndsSynchronization : Obligations.HighEndsSynchronization :=
  fun n s => ⟨fun hp => exec_high_of_sync hp n, fun hp => acceptIn_of_not_mem (by simpa using hp) _, fun _ => rfl⟩

theorem exec_fall_of_waitFall {s : State} (h : s.phase = .waitFall) (n : SampleIndex) :
    exec (.fall n) s = .next { afterFall n s with phase := .waitRise } :=
  acceptIn_of_mem (by simp [h]) _

/-- Settles O21: the latch of an accepted FALL, by whether a byte start is held. -/
theorem fallLatchesTheEdge : Obligations.FallLatchesTheEdge := by
  intro n s
  refine ⟨fun hp hunset => ?_, fun hp hset => ?_, fun hp => acceptIn_of_not_mem (by simpa using hp) _⟩
  · simp [exec_fall_of_waitFall hp, afterFall, hunset]
  · simp [exec_fall_of_waitFall hp, afterFall, hset]

/-- Settles O23: the three waits are the phases that await END, and the other three are not among them. -/
theorem endStopsTheLoop : Obligations.EndStopsTheLoop := by
  intro s
  refine ⟨fun hp => acceptIn_of_mem (by simpa using hp) _, fun hp => acceptIn_of_not_mem ?_ _, fun _ _ => rfl⟩
  obtain hp | hp | hp := hp
  · simp [hp]
  · simp [hp]
  · simp [hp]

/-! ## RISE (R154) -/

theorem exec_rise_of_waitRise {s : State} (h : s.phase = .waitRise) (n : SampleIndex) :
    exec (.rise n) s =
      .next (dispatchSymbol (classify (bitWidth s) s.fallSample (pulseWidth s.fallSample n)) n
        { s with phase := .waitFall }) :=
  acceptIn_of_mem (by simp [h]) _

/-- Every symbol emits something (R130). -/
theorem dispatchSymbol_ann_length_lt (sym : Symbol) (now : SampleIndex) (s : State) :
    s.ann.length < (dispatchSymbol sym now s).ann.length := by
  cases sym with
  | bit b st dur => exact assembleBit_ann_length_lt b s
  | brk st => exact assembleBreak_ann_length_lt now s

/-- Settles O22: an accepted RISE is the symbol its pulse's width selects, which keeps the phase and the latch. -/
theorem riseClassifiesAndDispatches : Obligations.RiseClassifiesAndDispatches := by
  intro n s w d u
  refine ⟨fun hp => ?_, fun hp => acceptIn_of_not_mem (by simpa using hp) _, fun _ => rfl⟩
  have hrise : exec (.rise n) s = .next (dispatchSymbol (classify w s.fallSample d) n u) :=
    exec_rise_of_waitRise hp n
  rw [hrise, ← breakThreshold_eq, ← halfBitWidth_eq]
  refine ⟨fun hbrk => ?_, fun hhalf hle => ?_, fun hle => ?_, ?_⟩
  · rw [classify_eq_brk_iff.2 hbrk]
    rfl
  · rw [classify_eq_bit0_iff.2 ⟨hhalf, hle⟩]
    rfl
  · rw [(classify_eq_bit1_iff (bitWidth_pos s)).2 hle]
    rfl
  · obtain ⟨new, hann, hmost⟩ := dispatchSymbol_ann (classify w s.fallSample d) n u
    have hlt := dispatchSymbol_ann_length_lt (classify w s.fallSample d) n u
    rw [hann, List.length_append] at hlt
    exact ⟨_, new, rfl, dispatchSymbol_phase _ n u, dispatchSymbol_fallSample _ n u, hann, by omega, hmost⟩

/-! ## The phase transition table (R157, R158) -/

/-- An input operation runs only where the table has an entry, and leads to the phase of that entry. -/
theorem phaseTable_of_exec {i : Instr} {s t : State} (hi : i.onEvPort = true) (h : exec i s = .next t) :
    phaseTable s.phase i = some t.phase := by
  obtain ⟨_, rfl, hp, rfl⟩ | ⟨_, rfl, hp, rfl⟩ | ⟨n, rfl, hp, rfl⟩ | ⟨rfl, hp, rfl⟩ |
    ⟨c, _, rfl, hrate, hp, rfl⟩ |
    ⟨c, rfl, hrate, hp, rfl⟩ | ⟨rfl, rfl⟩ | ⟨_, _, rfl, -⟩ | ⟨_, _, rfl, -⟩ | ⟨_, _, rfl, -⟩ := exec_cases h
  · rw [hp]; rfl
  · rw [hp]; rfl
  · rw [hp, dispatchSymbol_phase]; rfl
  · obtain hp | hp | hp := hp
    · rw [hp]; rfl
    · rw [hp]; rfl
    · rw [hp]; rfl
  · simp [hp, phaseTable, hrate]
  · simp [hp, phaseTable, hrate]
  · simp [phaseTable]
  · exact nomatch hi
  · exact nomatch hi
  · exact nomatch hi

/-- The one reason an instruction is refused for (R158). -/
theorem eq_wrongPhase_of_exec {i : Instr} {s : State} {r : Refusal} (h : exec i s = .refused r) :
    r = .wrongPhase := by
  cases i with
  | high n => exact (acceptIn_refused.1 h).2
  | fall n => exact (acceptIn_refused.1 h).2
  | rise n => exact (acceptIn_refused.1 h).2
  | endInput => exact (acceptIn_refused.1 h).2
  | start c => exact (acceptIn_refused.1 h).2
  | reset => exact nomatch h
  | bit0 st dur => exact nomatch h
  | bit1 st dur => exact nomatch h
  | brk st now => exact nomatch h

/-- Settles O19: an entry of the table runs, and an operation that runs has an entry; nothing else refuses it. -/
theorem phaseTableDecides : Obligations.PhaseTableDecides := by
  intro i s hi
  refine ⟨fun p hp => (exec_of_phaseTable hp).2, fun hnone => ?_⟩
  cases h : exec i s with
  | next t => exact nomatch hnone.symm.trans (phaseTable_of_exec hi h)
  | fault r => exact nomatch r
  | refused r => rw [eq_wrongPhase_of_exec h]

end Sys2Proof.Machine
end

section
/-! Proofs of the statements about exceptions and the outer bus (60_exceptions.md): ConfigurationError and the one way
out of it (R180 to R183), and the reference EdgeSource (R189, R192). -/

namespace Sys2Proof.Machine

/-! ## ConfigurationError (R180 to R183) -/

/-- In `ConfigFault` and in `Done` the phase table has no entry but RESET's (R157). -/
theorem phaseTable_eq_none_of_stopped {p : Phase} {i : Instr} (hp : p = .configFault ∨ p = .done)
    (hi : i ≠ .reset) : phaseTable p i = none := by
  cases i with
  | reset => exact absurd rfl hi
  | _ => obtain rfl | rfl := hp <;> rfl

/-- In `ConfigFault` and in `Done` every input operation but RESET is refused (R183). -/
theorem exec_refused_of_stopped {i : Instr} {s : State} (hs : s.phase = .configFault ∨ s.phase = .done)
    (hev : i.onEvPort = true) (hi : i ≠ .reset) : exec i s = .refused .wrongPhase :=
  (phaseTableDecides i s hev).2 (phaseTable_eq_none_of_stopped hs hi)

/-- Settles O16: RESET runs in every phase, and the phase table has no other entry for the two. -/
theorem onlyResetLeavesFaultAndDone : Obligations.OnlyResetLeavesFaultAndDone := by
  intro i s hs hev
  by_cases hi : i = .reset
  · subst hi
    have hflt : fltOf (resetRegisters s) = { fault := false, code := 0#2 } := fltOf_of_ne_configFault nofun
    exact .inl ⟨rfl, resetRegisters s, rfl, rfl, congrArg Flt.fault hflt⟩
  · exact .inr ⟨hi, exec_refused_of_stopped hs hev hi⟩

/-- Settles O15: the next state is `takeConfigurationError`, which stands in `ConfigFault`. -/
theorem configurationErrorEntry : Obligations.ConfigurationErrorEntry := by
  rintro ⟨_, br⟩ s hidle rfl
  have hflt : fltOf (takeConfigurationError s br) = { fault := true, code := 1#2 } := fltOf_of_configFault rfl
  refine ⟨takeConfigurationError s br, exec_start_absent_of_idle hidle br, rfl, rfl, hflt, congrArg Flt.toBits hflt,
    rfl, rfl, rfl, rfl, rfl, rfl, rfl, fun n => ⟨?_, ?_, ?_⟩⟩
  · exact exec_refused_of_stopped (.inl rfl) rfl nofun
  · exact exec_refused_of_stopped (.inl rfl) rfl nofun
  · exact exec_refused_of_stopped (.inl rfl) rfl nofun

/-- RESET and START without a sample rate run from every state and lead to `ConfigFault`. -/
theorem runTrace_reset_start_absent (br : PosRat) (tr : List Instr) (s : State) :
    runTrace (.reset :: .start { sampleRate := none, bitRate := br } :: tr) s =
      runTrace tr (takeConfigurationError (resetRegisters s) br) := by
  rw [runTrace_cons rfl rfl, runTrace_cons rfl (exec_start_absent_of_idle rfl br)]
  rfl

/-- Settles O18: the two words lead to `ConfigFault` with the output as it was, where only RESET is accepted. -/
theorem noSampleRateMeansNoOutput : Obligations.NoSampleRateMeansNoOutput := by
  rintro ⟨_, br⟩ s rfl
  refine ⟨⟨_, runTrace_reset_start_absent br [] s, rfl, congrArg Flt.fault (fltOf_of_configFault rfl)⟩, ?_⟩
  intro i tr hev hi
  rw [runTrace_reset_start_absent]
  exact runTrace_cons_refused hev (exec_refused_of_stopped (.inl rfl) hev hi)

/-! ## The answers of the reference EdgeSource (R192) -/

/-- The least index that may answer a wait, `p` being the index of the previous answer. -/
def EdgeWait.least : EdgeWait → Nat → Nat
  | .lineHigh,    _ => 0
  | .fallingEdge, p => p + 1
  | .risingEdge,  p => p + 1

/-- What a wait asks of sample `n`, wherever the previous answer was. -/
def EdgeWait.MetAt (samples : List Bool) : EdgeWait → Nat → Prop
  | .lineHigh,    n => samples[n]? = some true
  | .fallingEdge, n => 1 ≤ n ∧ samples[n - 1]? = some true ∧ samples[n]? = some false
  | .risingEdge,  n => 1 ≤ n ∧ samples[n - 1]? = some false ∧ samples[n]? = some true

section
variable {samples : List Bool} {wait : EdgeWait} {p n : Nat}

theorem answersWait_iff : answersWait samples wait p n = true ↔ wait.least p ≤ n ∧ wait.MetAt samples n := by
  cases wait with
  | lineHigh => simp [answersWait, EdgeWait.least, EdgeWait.MetAt]
  | fallingEdge =>
    simp only [answersWait, EdgeWait.least, EdgeWait.MetAt, Bool.and_eq_true, decide_eq_true_eq, beq_iff_eq, and_assoc]
    exact ⟨fun ⟨hlt, h⟩ => ⟨hlt, by omega, h⟩, fun ⟨hle, _, h⟩ => ⟨hle, h⟩⟩
  | risingEdge =>
    simp only [answersWait, EdgeWait.least, EdgeWait.MetAt, Bool.and_eq_true, decide_eq_true_eq, beq_iff_eq, and_assoc]
    exact ⟨fun ⟨hlt, h⟩ => ⟨hlt, by omega, h⟩, fun ⟨hle, _, h⟩ => ⟨hle, h⟩⟩

theorem answersWait_eq_false_iff :
    answersWait samples wait p n = false ↔ (wait.least p ≤ n → ¬ wait.MetAt samples n) := by
  rw [← Bool.not_eq_true, answersWait_iff, not_and]

/-- An answer is the least index that the wait may take and that meets it. -/
theorem edgeAnswer_eq_some_iff : edgeAnswer samples wait p = some n ↔
    wait.least p ≤ n ∧ wait.MetAt samples n ∧ ∀ m, wait.least p ≤ m → m < n → ¬ wait.MetAt samples m := by
  simp only [edgeAnswer_eq_some, answersWait_iff, answersWait_eq_false_iff, and_assoc]
  exact and_congr_right' (and_congr_right' (forall_congr' fun m => forall_comm))

theorem edgeAnswer_eq_none_iff :
    edgeAnswer samples wait p = none ↔ ∀ m, wait.least p ≤ m → ¬ wait.MetAt samples m := by
  simp only [edgeAnswer_eq_none, answersWait_eq_false_iff]

/-- After an answer only a later sample is asked for. -/
theorem EdgeWait.least_next (wait : EdgeWait) (p : Nat) : wait.next.least p = p + 1 := by
  cases wait <;> rfl

end

/-! ## The words of the reference EdgeSource, without fuel -/

/-- The words of R192 from a wait on, `p` being the index of the previous answer: answers in turn until there is
none, and then END. -/
inductive AnswersThenEnd (samples : List Bool) : EdgeWait → Nat → List Instr → Prop
  | exhausted {wait : EdgeWait} {p : Nat} (hnone : edgeAnswer samples wait p = none) :
      AnswersThenEnd samples wait p [.endInput]
  | answer {wait : EdgeWait} {p n : Nat} {ws : List Instr} (hsome : edgeAnswer samples wait p = some n)
      (hrest : AnswersThenEnd samples wait.next n ws) : AnswersThenEnd samples wait p (edgeWord wait n :: ws)

section
variable {samples : List Bool} {wait : EdgeWait} {p : Nat}

/-- Fuel that reaches from every answer to the end of the samples cuts no answer off. -/
theorem edgeWords_answersThenEnd {fuel : Nat}
    (hfuel : ∀ n, edgeAnswer samples wait p = some n → samples.length ≤ n + fuel) :
    AnswersThenEnd samples wait p (edgeWords samples fuel wait p) := by
  induction fuel generalizing wait p with
  | zero =>
    refine .exhausted (Option.eq_none_iff_forall_ne_some.2 fun n hn => ?_)
    exact absurd (lt_length_of_answersWait (edgeAnswer_eq_some.1 hn).1) (hfuel n hn).not_gt
  | succ fuel ih =>
    obtain ⟨hnone, heq⟩ | ⟨n, hsome, heq⟩ := edgeWords_succ samples fuel wait p
    · exact heq ▸ .exhausted hnone
    · refine heq ▸ .answer hsome (ih fun m hm => ?_)
      have hlt : wait.next.least n ≤ m := (edgeAnswer_eq_some_iff.1 hm).1
      rw [EdgeWait.least_next] at hlt
      have := hfuel n hsome
      omega

theorem edgeSource_answersThenEnd (samples : List Bool) :
    AnswersThenEnd samples .lineHigh 0 (edgeSource samples) :=
  edgeWords_answersThenEnd fun _ _ => Nat.le_add_left _ _

/-- What follows some of the words is again what the front end yields from some wait on. -/
theorem AnswersThenEnd.of_append {pre ws : List Instr} (h : AnswersThenEnd samples wait p (pre ++ ws))
    (hne : ws ≠ []) : ∃ wait' p', AnswersThenEnd samples wait' p' ws := by
  induction pre generalizing wait p with
  | nil => exact ⟨wait, p, h⟩
  | cons i pre ih =>
    generalize hws : i :: pre ++ ws = l at h
    cases h with
    | exhausted _ => simp [hne] at hws
    | answer _ hrest => exact ih ((List.cons.inj hws).2 ▸ hrest)

/-- A word that another follows is an answer, and the next word answers the next wait or is END. -/
theorem AnswersThenEnd.cons_cons {i j : Instr} {post : List Instr}
    (h : AnswersThenEnd samples wait p (i :: j :: post)) :
    ∃ n, edgeAnswer samples wait p = some n ∧ i = edgeWord wait n ∧
      ((∃ m, edgeAnswer samples wait.next n = some m ∧ j = edgeWord wait.next m) ∨
        (edgeAnswer samples wait.next n = none ∧ j = .endInput)) := by
  cases h with
  | answer hsome hrest =>
    cases hrest with
    | exhausted hnone => exact ⟨_, hsome, rfl, .inr ⟨hnone, rfl⟩⟩
    | answer hnext _ => exact ⟨_, hsome, rfl, .inl ⟨_, hnext, rfl⟩⟩

/-- Two words in a row anywhere: an answer to some wait, and what comes after it. -/
theorem edgeSource_consecutive {pre post : List Instr} {i j : Instr}
    (h : edgeSource samples = pre ++ i :: j :: post) :
    ∃ wait p n, edgeAnswer samples wait p = some n ∧ i = edgeWord wait n ∧
      ((∃ m, edgeAnswer samples wait.next n = some m ∧ j = edgeWord wait.next m) ∨
        (edgeAnswer samples wait.next n = none ∧ j = .endInput)) := by
  obtain ⟨wait, p, hrun⟩ := (h ▸ edgeSource_answersThenEnd samples).of_append (List.cons_ne_nil i _)
  exact ⟨wait, p, hrun.cons_cons⟩

theorem AnswersThenEnd.getLast?_eq {ws : List Instr} (h : AnswersThenEnd samples wait p ws) :
    ws.getLast? = some .endInput := by
  induction h with
  | exhausted _ => rfl
  | answer _ _ ih => rw [List.getLast?_cons, ih]; rfl

/-! ## The EdgeSource contract (R84, R189) -/

/-- Where a trace stands at a wait. -/
def EdgeWait.stage : EdgeWait → Nat → TraceStage
  | .lineHigh,    _ => .high
  | .fallingEdge, p => .fall (p + 1)
  | .risingEdge,  p => .rise (p + 1)

theorem AnswersThenEnd.traceFrom_stage {ws : List Instr} (h : AnswersThenEnd samples wait p ws) :
    traceFrom (wait.stage p) ws = true := by
  induction h with
  | @exhausted wait p _ => cases wait <;> rfl
  | @answer wait p n ws hsome _ ih =>
    have hle : wait.least p ≤ n := (edgeAnswer_eq_some_iff.1 hsome).1
    cases wait with
    | lineHigh => exact ih
    | fallingEdge => exact Bool.and_eq_true_iff.2 ⟨decide_eq_true hle, ih⟩
    | risingEdge => exact Bool.and_eq_true_iff.2 ⟨decide_eq_true hle, ih⟩

end

/-- Settles O48: by induction over the answers, each of which is later than the one before. -/
theorem referenceEdgeSourceMeetsContract : Obligations.ReferenceEdgeSourceMeetsContract := by
  intro samples c hc
  have hstart : traceWellFormed (.reset :: .start c :: edgeSource samples) =
      traceFrom (if c.sampleRate.isSome then .high else .faulted) (edgeSource samples) := rfl
  rw [hstart, if_pos hc]
  exact (edgeSource_answersThenEnd samples).traceFrom_stage

/-! ## Pulses and least answers (R192) -/

/-- From a low sample up to the first rising edge after it the line is low. -/
theorem low_until_risingEdge {samples : List Bool} {f r n : Nat} (hlow : samples[f]? = some false)
    (hrise : edgeAnswer samples .risingEdge f = some r) (hfn : f ≤ n) (hnr : n < r) :
    samples[n]? = some false := by
  obtain ⟨-, ⟨-, -, hr⟩, hleast⟩ := edgeAnswer_eq_some_iff.1 hrise
  have hlen : r < samples.length := (List.getElem?_eq_some_iff.1 hr).1
  induction n, hfn using Nat.le_induction with
  | base => exact hlow
  | succ n hfn ih =>
    have hprev : samples[n]? = some false := ih (by omega)
    have hnot : samples[n + 1]? ≠ some true := fun htrue =>
      hleast (n + 1) (Nat.succ_le_succ hfn) hnr ⟨by omega, hprev, htrue⟩
    rw [List.getElem?_eq_getElem (by omega)] at hnot ⊢
    simpa using hnot

/-- Settles O49: FALL answers a falling edge, and RISE the first rising edge after it. -/
theorem referencePulseIsARunOfLowSamples : Obligations.ReferencePulseIsARunOfLowSamples := by
  intro samples pre post f r h
  obtain ⟨wait, p, n, hfall, hi, ⟨m, hrise, hj⟩ | ⟨-, hj⟩⟩ := edgeSource_consecutive h
  · cases wait with
    | fallingEdge =>
      cases hi
      cases hj
      obtain ⟨-, ⟨hpos, hbefore, hlow⟩, -⟩ := edgeAnswer_eq_some_iff.1 hfall
      obtain ⟨hlt, ⟨-, -, hafter⟩, -⟩ := edgeAnswer_eq_some_iff.1 hrise
      exact ⟨hpos, hlt, hbefore, hafter, fun _ => low_until_risingEdge hlow hrise⟩
    | lineHigh => exact nomatch hi
    | risingEdge => exact nomatch hi
  · exact nomatch hj

/-- Settles O50: every word answers its wait with the least index, and END stands where the wait has no answer. -/
theorem referenceAnswersAreLeast : Obligations.ReferenceAnswersAreLeast := by
  intro samples high falling rising leastFrom
  have hrun := edgeSource_answersThenEnd samples
  refine ⟨?_, hrun.getLast?_eq, fun pre i j post h => ?_⟩
  · generalize edgeSource samples = ws at hrun
    cases hrun with
    | exhausted hnone => exact .inr ⟨rfl, fun n => edgeAnswer_eq_none_iff.1 hnone n n.zero_le⟩
    | answer hsome _ => exact .inl ⟨_, _, rfl, edgeAnswer_eq_some_iff.1 hsome⟩
  · obtain ⟨wait, p, n, -, rfl, ⟨m, hsome, rfl⟩ | ⟨hnone, rfl⟩⟩ := edgeSource_consecutive h
    · have hleast := edgeAnswer_eq_some_iff.1 hsome
      cases wait with
      | lineHigh => exact .inl ⟨m, rfl, hleast⟩
      | fallingEdge => exact .inl ⟨m, rfl, hleast⟩
      | risingEdge => exact .inl ⟨m, rfl, hleast⟩
    · have hleft := edgeAnswer_eq_none_iff.1 hnone
      cases wait with
      | lineHigh => exact .inr ⟨rfl, hleft⟩
      | fallingEdge => exact .inr ⟨rfl, hleft⟩
      | risingEdge => exact .inr ⟨rfl, hleft⟩

end Sys2Proof.Machine
end

section
/-! Proofs of the statements about reset and the hazards (70_reset_and_hazards.md): power-on (R210), what a run can
tell of the reset values (R211), bounded indices (R217), slow sampling (R218), and the configuration inputs (R219). -/

namespace Sys2Proof.Machine

/-! ## The cursor and the latch outside a low pulse (R211) -/

section
variable (q : Position) (n : SampleIndex) {s : State}

/-- `s` with other values in `cursor_sample` and `fall_sample`. -/
def State.withCursorAndLatch (s : State) : State := { s with cursorSample := q, fallSample := n }

/-- A word is accepted by the phase alone. -/
theorem acceptIn_withCursorAndLatch (ps : List Phase) (s : State) {t t' : State}
    (ht : t' = t.withCursorAndLatch q n) :
    acceptIn ps (s.withCursorAndLatch q n) t' = mapNext (State.withCursorAndLatch q n) (acceptIn ps s t) := by
  by_cases h : s.phase ∈ ps
  · rw [acceptIn_of_mem h, acceptIn_of_mem (s := s.withCursorAndLatch q n) h, ht, mapNext]
  · rw [acceptIn_of_not_mem h, acceptIn_of_not_mem (s := s.withCursorAndLatch q n) h, mapNext]

/-- Outside a low pulse an operation of the `ev` port overwrites both registers (FALL, RESET), is refused (RISE), or
carries both along unread. -/
theorem exec_withCursorAndLatch {i : Instr} (hi : i.onEvPort = true) (hp : s.phase ≠ .waitRise) :
    exec i (s.withCursorAndLatch q n) = exec i s ∨
    ((∀ m, i ≠ .fall m) ∧
      exec i (s.withCursorAndLatch q n) = mapNext (State.withCursorAndLatch q n) (exec i s)) := by
  cases i with
  | high m => exact .inr ⟨nofun, acceptIn_withCursorAndLatch q n _ s rfl⟩
  | fall m => exact .inl rfl
  | rise m =>
    have hnot : s.phase ∉ [Phase.waitRise] := by simpa using hp
    exact .inl ((acceptIn_of_not_mem (s := s.withCursorAndLatch q n) hnot _).trans (acceptIn_of_not_mem hnot _).symm)
  | endInput => exact .inr ⟨nofun, acceptIn_withCursorAndLatch q n _ s rfl⟩
  | start c =>
    obtain ⟨_ | sr, br⟩ := c
    · exact .inr ⟨nofun, acceptIn_withCursorAndLatch q n _ s rfl⟩
    · exact .inr ⟨nofun, acceptIn_withCursorAndLatch q n _ s rfl⟩
  | reset => exact .inl rfl
  | bit0 st dur => exact nomatch hi
  | bit1 st dur => exact nomatch hi
  | brk st now => exact nomatch hi

/-- A step from outside a low pulse forgets both registers, or carries both along and stays outside. -/
theorem step_withCursorAndLatch (hs : s.sym = none) (hp : s.phase ≠ .waitRise) :
    step (s.withCursorAndLatch q n) = step s ∨
    (step (s.withCursorAndLatch q n) = mapNext (State.withCursorAndLatch q n) (step s) ∧
      ∀ t, step s = .next t → t.sym = none ∧ t.phase ≠ .waitRise) := by
  cases hin : s.inputs with
  | nil =>
    rw [step_of_fetch_none (fetch_eq_none.2 ⟨hs, hin⟩),
      step_of_fetch_none (s := s.withCursorAndLatch q n) (fetch_eq_none.2 ⟨hs, hin⟩)]
    refine .inr ⟨rfl, ?_⟩
    rintro t ⟨⟩
    exact ⟨hs, hp⟩
  | cons x rest =>
    have hf := fetch_of_inputs hs hin
    have hf' := fetch_of_inputs (s := s.withCursorAndLatch q n) hs hin
    cases hd : decodeEv x with
    | error e => exact .inl ((step_of_decode_error hf' hd).trans (step_of_decode_error hf hd).symm)
    | ok i =>
      have hi := onEvPort_of_decodeEv hd
      rw [step_of_decode_ok hf hd, step_of_decode_ok hf' hd]
      refine (exec_withCursorAndLatch q n (s := { s with inputs := rest }) hi hp).imp_right ?_
      rintro ⟨hfall, hcarried⟩
      refine ⟨hcarried, fun t he => ⟨(exec_streams he).2.trans hs, fun ht => ?_⟩⟩
      obtain ⟨m, him, -⟩ := exec_into_waitRise hi he ht
      exact hfall m him

/-- A run from outside a low pulse ends alike, or differs in the two registers alone. -/
theorem runSteps_withCursorAndLatch (k : Nat) (hs : s.sym = none) (hp : s.phase ≠ .waitRise) :
    runSteps k (s.withCursorAndLatch q n) = runSteps k s ∨
    runSteps k (s.withCursorAndLatch q n) = mapNext (State.withCursorAndLatch q n) (runSteps k s) := by
  induction k generalizing s with
  | zero => exact .inr rfl
  | succ k ih =>
    obtain hsame | ⟨hcarried, hnext⟩ := step_withCursorAndLatch q n hs hp
    · exact .inl (by rw [runSteps, hsame, runSteps])
    · cases h : step s with
      | next t =>
        rw [h] at hcarried
        obtain ⟨hs', hp'⟩ := hnext t h
        rw [runSteps_of_next k h, runSteps_of_next k hcarried]
        exact ih hs' hp'
      | fault r => exact nomatch r
      | refused r =>
        rw [h] at hcarried
        exact .inl ((runSteps_of_refused k hcarried).trans (runSteps_of_refused k h).symm)

end

/-- Settles O13: the two runs end alike or differ in the two registers alone, and a refusal carries no register. -/
theorem cursorAndLatchAreUnobservableOutsideAPulse : Obligations.CursorAndLatchAreUnobservableOutsideAPulse := by
  intro tr s q n hp
  have hrun : runTrace tr { s with cursorSample := q, fallSample := n } = runTrace tr s ∨
      runTrace tr { s with cursorSample := q, fallSample := n } =
        mapNext (State.withCursorAndLatch q n) (runTrace tr s) :=
    runSteps_withCursorAndLatch q n tr.length (s := deliver tr s) rfl hp
  refine ⟨fun r h => ?_, fun t h => ?_⟩
  · rw [h] at hrun
    exact hrun.elim id id
  · rw [h] at hrun
    obtain hsame | hcarried := hrun
    · exact ⟨t, hsame, rfl, rfl, rfl, rfl, rfl, rfl⟩
    · exact ⟨_, hcarried, rfl, rfl, rfl, rfl, rfl, rfl⟩

/-! ## The configuration inputs (R219) -/

/-- Only op 4 decodes to START and only op 5 to RESET (R72). -/
theorem op_of_decodeEv {x : EvIn} {i : Instr} (h : decodeEv x = .ok i) :
    (∀ c, i = .start c → x.op = 4#3) ∧ (i = .reset → x.op = 5#3) := by
  obtain ⟨-, e⟩ | ⟨-, e⟩ | ⟨-, e⟩ | ⟨-, e⟩ | ⟨hop, e⟩ | ⟨hop, e⟩ | ⟨-, e⟩ := decodeEv_cases x <;>
    rw [e] at h <;> cases h
  · exact ⟨nofun, nofun⟩
  · exact ⟨nofun, nofun⟩
  · exact ⟨nofun, nofun⟩
  · exact ⟨nofun, nofun⟩
  · exact ⟨fun _ _ => hop, nofun⟩
  · exact ⟨nofun, fun _ => hop⟩

/-- The decoder reads the `cfg` port for START alone. -/
theorem decodeEv_with_cfg {x : EvIn} (h : x.op ≠ 4#3) (c : CfgIn) : decodeEv { x with cfg := c } = decodeEv x := by
  obtain ⟨op, t, p⟩ := x
  obtain ⟨rfl, -⟩ | ⟨rfl, -⟩ | ⟨rfl, -⟩ | ⟨rfl, -⟩ | ⟨hop, -⟩ | ⟨rfl, -⟩ | ⟨hop, e⟩ := decodeEv_cases ⟨op, t, p⟩
  · rfl
  · rfl
  · rfl
  · rfl
  · exact absurd hop h
  · rfl
  · exact (decodeEv_reserved (x := ⟨op, t, c⟩) hop).trans e.symm

/-- A step with an input word and no symbol depends on what the word decodes to, not on its fields. -/
theorem step_with_inputs_congr {s : State} {x y : EvIn} {rest : List EvIn} (hs : s.sym = none)
    (hin : s.inputs = x :: rest) (hdec : decodeEv y = decodeEv x) :
    step { s with inputs := y :: rest } = step s := by
  have hf := fetch_of_inputs hs hin
  have hf' := fetch_of_inputs (s := { s with inputs := y :: rest }) hs rfl
  cases hd : decodeEv x with
  | ok i => exact (step_of_decode_ok hf' (hdec.trans hd)).trans (step_of_decode_ok hf hd).symm
  | error e => exact (step_of_decode_error hf' (hdec.trans hd)).trans (step_of_decode_error hf hd).symm

/-- Settles O10: only START's decoding reads the port, and only START and RESET write the latch. -/
theorem configurationIsReadAtStartOnly : Obligations.ConfigurationIsReadAtStartOnly := by
  intro s x rest c hs hin hstart
  refine ⟨step_with_inputs_congr hs hin (decodeEv_with_cfg hstart c), fun t hstep hreset => ?_⟩
  obtain ⟨hempty, -⟩ | ⟨y, rest', i, hin', hdec, he⟩ := step_cases_of_sym_none hs hstep
  · exact nomatch hin.symm.trans hempty
  · obtain ⟨rfl, rfl⟩ := List.cons.inj (hin.symm.trans hin')
    obtain ⟨-, -, hcfg, -⟩ := onlyListedOperationsWriteARegister i _ t he
    by_contra hne
    obtain ⟨hstartOp, hresetOp⟩ := op_of_decodeEv hdec
    obtain ⟨c', hi⟩ | hi := hcfg hne
    · exact hstart (hstartOp c' hi)
    · exact hreset (hresetOp hi)

/-! ## Slow sampling (R218) -/

/-- Settles O29: the shortest legal pulse is one sample, which is a Bit(1) up to half a bit width. -/
theorem bitOneNeedsTwoSamplesPerBit : Obligations.BitOneNeedsTwoSamplesPerBit := by
  intro sr br st
  have hbr : 0 < br.val := br.property
  have hclass (d : Int) :
      classify (bitWidthOf (some { sampleRate := some sr, bitRate := br })) st d = .bit true st d ↔
        2 * (d : ℚ) * br.val ≤ sr.val := by
    rw [classify_eq_bit1_iff (bitWidthOf_pos _), ← not_lt, ← not_lt (a := sr.val)]
    exact not_congr (halfBitWidth_div_lt_iff sr br d)
  constructor
  · rintro ⟨d, hd, hone⟩
    have hd' : (1 : ℚ) ≤ d := by exact_mod_cast hd
    calc 2 * br.val ≤ 2 * (d : ℚ) * br.val := mul_le_mul_of_nonneg_right (by linarith) hbr.le
      _ ≤ sr.val := (hclass d).1 hone
  · intro h
    exact ⟨1, le_refl 1, (hclass 1).2 (by simpa using h)⟩

/-! ## Bounded indices (R217) -/

section
variable {sw : Nat} {s t : State} {x : EvIn} {rest : List EvIn}

theorem evFits_iff : evFits sw x = true ↔ (x.op.toNat ≤ 2 → x.t < 2 ^ sw) := decide_eq_true_iff

theorem all_annFits_iff {anns : List Annotation} :
    anns.all (annFits sw) = true ↔ ∀ a ∈ anns, a.endPos < (2 : ℚ) ^ sw := by
  simp [annFits]

/-- A bounded step whose normative step runs is that step, or refused where the word or an annotation does not fit. -/
theorem stepBounded_of_next (hs : s.sym = none) (hin : s.inputs = x :: rest) (h : step s = .next t) :
    stepBounded sw s =
      if evFits sw x = true ∧ (t.ann.drop s.ann.length).all (annFits sw) = true then .next t
      else .refused .indexWidth := by
  simp only [stepBounded, fetch_of_inputs hs hin, h]
  rw [ite_and]

end

/-- Settles O47: what the bounded step tests is that the index and every annotation end fit. -/
theorem boundedStepAgreesOrRefuses : Obligations.BoundedStepAgreesOrRefuses := by
  intro sw s x rest t hs hin hstep fits
  have hfits : evFits sw x = true ∧ (t.ann.drop s.ann.length).all (annFits sw) = true ↔ fits :=
    and_congr evFits_iff all_annFits_iff
  rw [stepBounded_of_next hs hin hstep]
  exact ⟨fun h => if_pos (hfits.2 h), fun h => if_neg (mt hfits.1 h)⟩

/-! ## Power-on (R210) -/

section
variable {x : EvIn} (rest : List EvIn)

theorem decodeEv_of_op_lt_five (h : x.op.toNat < 5) : ∃ i, decodeEv x = .ok i ∧ i ≠ .reset := by
  obtain ⟨-, e⟩ | ⟨-, e⟩ | ⟨-, e⟩ | ⟨-, e⟩ | ⟨-, e⟩ | ⟨hop, -⟩ | ⟨hop, -⟩ := decodeEv_cases x
  · exact ⟨_, e, nofun⟩
  · exact ⟨_, e, nofun⟩
  · exact ⟨_, e, nofun⟩
  · exact ⟨_, e, nofun⟩
  · exact ⟨_, e, nofun⟩
  · simp [hop] at h
  · omega

theorem decodeEv_of_op_five (h : x.op = 5#3) : decodeEv x = .ok .reset := by
  rw [decodeEv, h]
  rfl

theorem stepPowered_noValue_of_reset (h : decodeEv x = .ok .reset) :
    stepPowered (.noValue (x :: rest)) = .next (.running { State.reset with inputs := rest }) := by
  simp only [stepPowered, h]

theorem stepPowered_noValue_of_ne_reset {i : Instr} (h : decodeEv x = .ok i) (hi : i ≠ .reset) :
    stepPowered (.noValue (x :: rest)) = .refused .noRegisterValue := by
  cases i with
  | reset => exact absurd rfl hi
  | _ => simp only [stepPowered, h]

theorem stepPowered_noValue_of_error {e : DecodeError} (h : decodeEv x = .error e) :
    stepPowered (.noValue (x :: rest)) = .refused (refusalOf e) := by
  simp only [stepPowered, h]

end

/-- Settles O12: what the word decodes to decides, by the three ranges of its code. -/
theorem powerOnRunsOnlyReset : Obligations.PowerOnRunsOnlyReset := by
  intro x rest
  refine ⟨fun h => stepPowered_noValue_of_reset rest (decodeEv_of_op_five h), fun h => ?_,
    fun h => stepPowered_noValue_of_error rest (decodeEv_reserved h)⟩
  obtain ⟨i, hdec, hi⟩ := decodeEv_of_op_lt_five h
  exact stepPowered_noValue_of_ne_reset rest hdec hi

end Sys2Proof.Machine
end
